-- ==== Sys2Proof/Word.lean ====
section
/-! DEFINITION. The plain value types of the engine: octets, octet strings, 32-bit register words, bus addresses
(spec/00_scope.md R11, spec/10_state.md R32, spec/20_memory.md R60). -/

namespace Sys2Proof

/-- An octet, an unsigned 8-bit value; bit 7 is the most significant (R11). -/
abbrev Octet := BitVec 8

/-- An octet string; index 0 is the first octet, the one at the lowest address (R11). -/
abbrev Octets := List Octet

/-- A 32-bit interface register or command word; bit 31 is the most significant (R11, R32). -/
abbrev Word := BitVec 32

/-- A bus address, `ADDR_W` = 32 bits (R9, R60). -/
abbrev Addr := BitVec 32

end Sys2Proof
end

