-- ==== Sys2Proof/Syntax.lean ====
section
/-! DEFINITION. The commands of the engine, one constructor per row of spec/opcode_table.json (spec/30_encoding.md
R92). Every command word carries the fields `L` and `MAC` (R90, R98), also where the command ignores them (R94). -/

namespace Sys2Proof

/-- One command: the operation with the integers its `L` field (0..15) and its `MAC` field (0..31) hold (R93). -/
inductive Instr where
  /-- `INIT` (R231); both fields ignored. -/
  | init (l mac : Nat)
  /-- `CCMS_ENC` (R201): L and the tag length M. -/
  | ccmsEnc (l mac : Nat)
  /-- `CCMS_DEC` (R211): L and the tag length M. -/
  | ccmsDec (l mac : Nat)
  /-- `CBC_ENC_RAW` (R166); both fields ignored. -/
  | cbcEncRaw (l mac : Nat)
  /-- `CTR_ENC_RAW` (R168); both fields ignored. -/
  | ctrEncRaw (l mac : Nat)
  /-- `ECB_ENC` (R133); both fields ignored. -/
  | ecbEnc (l mac : Nat)
deriving DecidableEq, Repr

/-- The integer in the `L` field (R93). -/
def Instr.lField : Instr → Nat
  | .init l _ => l
  | .ccmsEnc l _ => l
  | .ccmsDec l _ => l
  | .cbcEncRaw l _ => l
  | .ctrEncRaw l _ => l
  | .ecbEnc l _ => l

/-- The integer in the `MAC` field (R93). -/
def Instr.macField : Instr → Nat
  | .init _ m => m
  | .ccmsEnc _ m => m
  | .ccmsDec _ m => m
  | .cbcEncRaw _ m => m
  | .ctrEncRaw _ m => m
  | .ecbEnc _ m => m

end Sys2Proof
end

