-- ==== Sys2Proof/WellFormed.lean ====
section
/-! DEFINITION. When a command fits its encoding: `L` has four bits and `MAC` five (spec/30_encoding.md R90, R93).
Which of the encodable values a CCM* command accepts is decided by the command, not here (R93). -/

namespace Sys2Proof

/-- `L` fits bits 7:4 (R90). -/
def lFits (l : Nat) : Bool := decide (l < 16)

/-- `MAC` fits bits 12:8 (R90). -/
def macFits (mac : Nat) : Bool := decide (mac < 32)

/-- Both fields fit (R93, R98: L in 0..15, MAC in 0..31). -/
def Instr.wellFormed (i : Instr) : Bool := lFits i.lField && macFits i.macField

end Sys2Proof
end

