-- ==== Sys2Proof/Decode.lean ====
section
/-! DEFINITION. The decoder of a 32-bit command word and the encoder, both from the tables of spec/30_encoding.md
(R90, R92, R97, R98, R99). The decoder is total and reads only the word. -/

namespace Sys2Proof

/-- Why a word is reserved (R97). -/
inductive ReservedReason where
  /-- A bit of `RSV`, bits 31:13, is set. -/
  | reservedBits
  /-- `OP` is 0 or 7 to 15. -/
  | reservedOp
deriving DecidableEq, Repr

/-- What a word decodes to (R98). -/
inductive Decoded where
  /-- `Cmd(op, L, MAC)`. -/
  | command (i : Instr)
  /-- `Reserved`, with the reason. -/
  | reserved (why : ReservedReason)
deriving DecidableEq, Repr

/-- `OP` = w[3:0] (R90). -/
def opField (w : Word) : Nat := w.toNat % 16

/-- `L` = w[7:4] (R90). -/
def lFieldOf (w : Word) : Nat := w.toNat / 16 % 16

/-- `MAC` = w[12:8] (R90). -/
def macFieldOf (w : Word) : Nat := w.toNat / 256 % 32

/-- `RSV` = w[31:13] (R90). -/
def rsvField (w : Word) : Nat := w.toNat / 8192

/-- The decoder of R98: one clause per opcode of R92, everything else reserved (R97). -/
def decode (w : Word) : Decoded :=
  if rsvField w ≠ 0 then .reserved .reservedBits
  else
    match opField w with
    | 1 => .command (.init (lFieldOf w) (macFieldOf w))
    | 2 => .command (.ccmsEnc (lFieldOf w) (macFieldOf w))
    | 3 => .command (.ccmsDec (lFieldOf w) (macFieldOf w))
    | 4 => .command (.cbcEncRaw (lFieldOf w) (macFieldOf w))
    | 5 => .command (.ctrEncRaw (lFieldOf w) (macFieldOf w))
    | 6 => .command (.ecbEnc (lFieldOf w) (macFieldOf w))
    | _ => .reserved .reservedOp

/-- The 32-bit command word whose low `nbits` bits are those of `w` and whose other bits are 0. -/
def tableWord (nbits w : Nat) : Word := BitVec.ofNat 32 (w % 2 ^ nbits)

/-- The command the decoder reads from the word numbered as spec/opcode_table.json numbers it; `none` for a
reserved word. A command is one 32-bit register write, so no byte order enters (R65, R91). -/
def decodeTableWord (nbits w : Nat) : Option Instr :=
  match decode (tableWord nbits w) with
  | .command i => some i
  | .reserved _ => none

/-- The `OP` value of a command (R92). -/
def opcode : Instr → Nat
  | .init _ _ => 1
  | .ccmsEnc _ _ => 2
  | .ccmsDec _ _ => 3
  | .cbcEncRaw _ _ => 4
  | .ctrEncRaw _ _ => 5
  | .ecbEnc _ _ => 6

/-- A command's word, `OP | L<<4 | MAC<<8` (R90, R99). -/
def encode (i : Instr) : Word :=
  BitVec.ofNat 32 (opcode i ||| i.lField <<< 4 ||| i.macField <<< 8)

end Sys2Proof
end

