-- ==== Sys2Proof/Config.lean ====
section
/-! DEFINITION. The engine's parameters (spec/00_scope.md R9) and the values the spec leaves open
(spec/93_implementation_defined.md section 1). The parameters R9 gives a value are constants. The OPEN ones are the
fields of `Platform`, which State carries unchanged; for `State.reset` they are opaque constants. Free values are
opaque too: nothing can be proved of them but that they are values. -/

namespace Sys2Proof

/-- A region `(p, n)`: the octets at addresses p, …, p+n−1 (R61). -/
structure Region where
  /-- The start address p, as a number. -/
  start : Nat
  /-- The length n in octets. -/
  len : Nat
deriving DecidableEq, Repr

/-- The OPEN parameters of R9, and the size of the decoded range (R64, R71). They are configuration, not machine
state (R41): no step changes them. -/
structure Platform where
  /-- `ENGINE_BASE` without its five low bits: the base is naturally aligned to 32 octets (R71). -/
  engineBlock : BitVec 27
  /-- How many octets beyond the 32 of the register block its decoded range has (R64, R71). -/
  decodedExtra : Nat
  /-- Where `MemAdmit` holds, as address ranges; on a finite space a list of ranges states any predicate (R60). -/
  admitted : List Region
  /-- `RAW_CTR_WIDTH` − 1: the width is 1 to 16 octets (R9, R160). -/
  rawCtrWidthCode : Fin 16
deriving DecidableEq, Repr

namespace Config

/-- `KEY_LEN` (R9). -/
abbrev keyLen : Nat := 16

/-- `BLK` (R9). -/
abbrev blk : Nat := 16

/-- `L_SET`, the accepted values of L (R9, D13). -/
def lSet : List Nat := [2, 3, 4, 5, 6, 7, 8]

/-- `MAC_SET`, the accepted tag lengths M (R9, D14). -/
def macSet : List Nat := [0, 4, 8, 16]

/-- `MAX_A`, the largest associated-data length (R9). -/
abbrev maxA : Nat := 255

/-- `MAX_LEN`, the largest message or buffer length, input and output (R9, D15). -/
abbrev maxLen : Nat := 255

/-- The number of addresses of the bus, 2^`ADDR_W` (R9, R60). -/
abbrev addrSpace : Nat := 2 ^ 32

/-- The reset platform's `ENGINE_BASE`, bits 31:5. OPEN in R9: no value is chosen (log entry 3). -/
opaque engineBlock : BitVec 27

/-- The reset platform's decoded range beyond 32 octets. The platform's, by R71: no value is chosen (log entry 3). -/
opaque decodedExtra : Nat

/-- The reset platform's `MemAdmit`. OPEN in R9: no value is chosen (log entry 3). -/
opaque admittedRanges : List Region

/-- The reset platform's `RAW_CTR_WIDTH` − 1. OPEN in R9: no value is chosen (log entry 3). -/
opaque rawCtrWidthCode : Fin 16

/-- The platform `State.reset` stands on: every parameter open (log entry 3). -/
def platform : Platform where
  engineBlock := engineBlock
  decodedExtra := decodedExtra
  admitted := admittedRanges
  rawCtrWidthCode := rawCtrWidthCode

/-- FREE VALUE: what the n-th drawn pointer or length register holds after reset; the second argument is what it
held before, on which the chip's value may depend (R44, U14; log entry 1). -/
opaque resetDraw : Nat → Word → Word

/-- FREE VALUE: the n-th octet drawn for the buffer of a failed decryption; the second argument is everything the
command read, on which the chip's octet may depend (R213, U3; log entry 7). -/
opaque failureOctet : Nat → Octets → Octet

/-- FREE VALUE: whether `RegionWraps` is the reason recorded when a command has both a region that wraps and a
region that is not admitted (R62, U15; log entry 8). -/
opaque recordsWrap : Nat → List Region → Bool

end Config

end Sys2Proof
end

