-- ==== Sys2Proof/Machine/State.lean ====
section
/-! DEFINITION. The machine's state (spec/10_state.md R41), what a host access is (R30, R64, R73), the faults
(spec/60_exceptions.md R268) and the state after reset (R44). Everything is plain data. -/

namespace Sys2Proof.Machine

/-- The fault reasons of R268. Each stands for behaviour the source leaves undefined, so stopping is SAFE: no false
claim about a faulting run can be proved. -/
inductive Fault where
  /-- Raised by any command but `INIT` while `INITIALIZED` = 0 (R230 step 2). Safe. -/
  | notInitialized
  /-- Raised by `INIT` while `INITIALIZED` = 1 (R230 step 2, R231). Safe. -/
  | doubleInit
  /-- Raised by a command whose operand region has p + n > 2^32 (R62). Safe. -/
  | regionWraps
  /-- Raised by a command whose operand region has an address where `MemAdmit` fails (R62). Safe. -/
  | regionNotAdmitted
  /-- Raised by a command whose message region shares an address with a region it only reads (R63). Safe. -/
  | operandOverlap
  /-- Raised by a host access to the register block that is not an aligned 32-bit access at an offset 0x00 to 0x1C
  (R64). Safe. -/
  | badRegisterAccess
deriving DecidableEq, Repr

/-- Reasons for having no meaning. -/
inductive Refusal where
  /-- An instruction of the opcode table without a meaning in the model; raised by `exec` alone. Safe. Every row has
  its meaning, so no arm raises it. -/
  | notModelled (mnemonic : String)
deriving DecidableEq, Repr

/-- `STATUS.CODE` (R33). Values 5 to 7 are never written, so they have no constructor (U12). -/
inductive StatusCode where
  /-- 0: no command has completed since reset. -/
  | none
  /-- 1. -/
  | success
  /-- 2. -/
  | invalidParameter
  /-- 3. -/
  | invalidLength
  /-- 4. -/
  | authenticationFailed
deriving DecidableEq, Repr

/-- The eight interface registers (R32). -/
inductive Reg where
  | cmd
  | status
  | keyPtr
  | noncePtr
  | aPtr
  | lenA
  | mPtr
  | lenM
deriving DecidableEq, Repr

/-- The width of a host access to the register block (R64). -/
inductive AccessSize where
  | octet
  | half
  | word
deriving DecidableEq, Repr

/-- One event on the engine's bus: an access of the host, or a reset applied by the platform (R30, R73, R291).
A register access gives the offset from `ENGINE_BASE`; its absolute address is `ENGINE_BASE` + offset (R64). Memory
is reached octet by octet, since no multi-octet memory word exists (R14, R65). -/
inductive HostOp where
  /-- A host write of `value` to the register block. -/
  | regWrite (size : AccessSize) (offset : Addr) (value : Word)
  /-- A host read of the register block. -/
  | regRead (size : AccessSize) (offset : Addr)
  /-- A host write of one octet at a bus address. -/
  | octetWrite (addr : Addr) (value : Octet)
  /-- A host read of one octet at a bus address. -/
  | octetRead (addr : Addr)
  /-- A reset (R290, R293). -/
  | reset
deriving DecidableEq, Repr

/-- Bus memory: the octets that differ from 0, by strictly rising address (R41, R60; log entry 2). -/
abbrev Memory := List Host.Cell

/-- The machine. The first nine fields are the spec's `EngineState` (R41), `mem` is its `Memory`, `platform` its
configuration; `pending`, `observed` and `draws` are the model's own (log entries 4, 5, 6). -/
structure State where
  /-- `INITIALIZED`, and through it `STATUS.INIT_DONE` (R38). -/
  initialized : Bool
  /-- `STATUS.CODE` (R33). -/
  status : StatusCode
  /-- `KEY_PTR` (R35). -/
  keyPtr : Word
  /-- `NONCE_PTR` (R35). -/
  noncePtr : Word
  /-- `A_PTR` (R35). -/
  aPtr : Word
  /-- `LEN_A` (R37). -/
  lenA : Word
  /-- `M_PTR` (R35). -/
  mPtr : Word
  /-- `LEN_M` (R37). -/
  lenM : Word
  /-- `FAULTED` (R40): once set, no step follows. -/
  faulted : Option Fault
  /-- Bus memory (R41, R60). -/
  mem : Memory
  /-- The OPEN parameters (R9); no step changes them. -/
  platform : Platform
  /-- The host's accesses still to come, in program order (R73). -/
  pending : List HostOp
  /-- What the host's reads returned, newest first. -/
  observed : List Word
  /-- How many free values have been drawn. -/
  draws : Nat
deriving DecidableEq, Repr

/-- The machine right after reset (R44, R290). The six pointer and length registers hold draws (log entry 1). -/
def State.reset : State where
  initialized := false
  status := .none
  keyPtr := Config.resetDraw 0 0
  noncePtr := Config.resetDraw 1 0
  aPtr := Config.resetDraw 2 0
  lenA := Config.resetDraw 3 0
  mPtr := Config.resetDraw 4 0
  lenM := Config.resetDraw 5 0
  faulted := none
  mem := []
  platform := Config.platform
  pending := []
  observed := []
  draws := 6

/-- The outcome of a step or of a command. -/
abbrev StepResult := Host.Outcome State Fault Refusal

end Sys2Proof.Machine
end

