-- ==== Sys2Proof/Machine/Flags.lean ====
section
/-! DEFINITION. `STATUS` as the host reads it (spec/10_state.md R33), and the parameter and length checks that decide
which code a command reports (spec/60_exceptions.md R261, R262). The pure functions and the commands share them. -/

namespace Sys2Proof.Machine

/-- The value of `STATUS.CODE` (R33). -/
def StatusCode.value : StatusCode → Word
  | .none => 0
  | .success => 1
  | .invalidParameter => 2
  | .invalidLength => 3
  | .authenticationFailed => 4

/-- `STATUS` as a 32-bit value: `CODE` in bits 2:0, `INIT_DONE` in bit 8, every other bit 0 (R33). -/
def statusWord (initialized : Bool) (code : StatusCode) : Word :=
  code.value ||| (if initialized then 0x100 else 0)

/-- `ECB_ENC` wants exactly one block (R262(a)). -/
def ecbLengthOk (n : Nat) : Bool := n == Config.blk

/-- `CBC_ENC_RAW` wants a non-empty whole number of blocks, at most `MAX_LEN` octets (R262(b)). -/
def cbcLengthOk (n : Nat) : Bool := !(n == 0) && n % 16 == 0 && decide (n ≤ Config.maxLen)

/-- `CTR_ENC_RAW` wants at most `MAX_LEN` octets (R262(c)). -/
def ctrLengthOk (n : Nat) : Bool := decide (n ≤ Config.maxLen)

/-- L and M are in the accepted sets (R191 cases 1 and 2, R261). -/
def ccmParametersOk (L M : Nat) : Bool := Config.lSet.contains L && Config.macSet.contains M

/-- `CCMS_ENC`'s lengths (R192 cases 2 and 3, R262(d)): la octets of associated data, lm of message. -/
def ccmEncLengthsOk (la lm M : Nat) : Bool :=
  decide (la ≤ Config.maxA) && decide (lm + M ≤ Config.maxLen)

/-- `CCMS_DEC`'s lengths (R192 cases 2 and 4, R262(e)): lm counts the ciphertext and the tag. -/
def ccmDecLengthsOk (la lm M : Nat) : Bool :=
  decide (la ≤ Config.maxA) && decide (lm ≤ Config.maxLen) && decide (M ≤ lm)

end Sys2Proof.Machine
end

