-- ==== Sys2Proof/Machine/Octets.lean ====
section
/-! DEFINITION. Octet-string notation (spec/00_scope.md R11, R12, R13): exclusive OR, zeros, big-endian integers,
padding and blocks. -/

namespace Sys2Proof.Machine

/-- `zeros(n)` (R11). -/
def zeros (n : Nat) : Octets := List.replicate n 0

/-- `A xor B` of two strings of equal length, octet by octet (R11). -/
def xorOctets (a b : Octets) : Octets := List.zipWith (· ^^^ ·) a b

/-- `trunc(B, n)` = `B[0..n)` (R11). -/
def trunc (b : Octets) (n : Nat) : Octets := b.take n

/-- `be_n(v)`: the n-octet big-endian encoding of v, most significant octet first (R12). -/
def bigEndian : Nat → Nat → Octets
  | 0, _ => []
  | n + 1, v => BitVec.ofNat 8 (v / 256 ^ n) :: bigEndian n v

/-- `int_be(B)`, the inverse of `be_n` (R12). -/
def intOfBigEndian (b : Octets) : Nat := b.foldl (fun acc o => acc * 256 + o.toNat) 0

/-- `pad16(B)`: B zero-padded to a multiple of 16 octets (R13). -/
def pad16 (b : Octets) : Octets := b ++ zeros ((16 - b.length % 16) % 16)

/-- `blocks(B)`: the 16-octet blocks of a string whose length is a multiple of 16, in order (R13). -/
def blocks (b : Octets) : List Octets :=
  (List.range (b.length / 16)).map fun i => (b.drop (16 * i)).take 16

end Sys2Proof.Machine
end

