-- ==== Sys2Proof/Machine/Aes.lean ====
section
/-! DEFINITION. The AES-128 forward cipher (spec/40_block_cipher.md R120 to R130). A cipher state is its 16-octet
string: octet r + 4c is row r of column c (R120). -/

namespace Sys2Proof.Machine

/-- Multiplication by x in GF(2^8) with the polynomial 0x11B (R121). -/
def xtime (b : Octet) : Octet := (b <<< 1) ^^^ (if b.msb then 0x1B else 0x00)

/-- General multiplication `a • b`: the XOR of `xtime^i(a)` over the bits i set in b (R121). -/
def gfMul (a b : Octet) : Octet :=
  (List.range 8).foldl (fun acc i => if b.getLsbD i then acc ^^^ Nat.repeat xtime i a else acc) 0

/-- The table of `SBOX`, a row for each high hex digit (R123). -/
def sboxRows : List Octets :=
  [[0x63, 0x7c, 0x77, 0x7b, 0xf2, 0x6b, 0x6f, 0xc5, 0x30, 0x01, 0x67, 0x2b, 0xfe, 0xd7, 0xab, 0x76],
   [0xca, 0x82, 0xc9, 0x7d, 0xfa, 0x59, 0x47, 0xf0, 0xad, 0xd4, 0xa2, 0xaf, 0x9c, 0xa4, 0x72, 0xc0],
   [0xb7, 0xfd, 0x93, 0x26, 0x36, 0x3f, 0xf7, 0xcc, 0x34, 0xa5, 0xe5, 0xf1, 0x71, 0xd8, 0x31, 0x15],
   [0x04, 0xc7, 0x23, 0xc3, 0x18, 0x96, 0x05, 0x9a, 0x07, 0x12, 0x80, 0xe2, 0xeb, 0x27, 0xb2, 0x75],
   [0x09, 0x83, 0x2c, 0x1a, 0x1b, 0x6e, 0x5a, 0xa0, 0x52, 0x3b, 0xd6, 0xb3, 0x29, 0xe3, 0x2f, 0x84],
   [0x53, 0xd1, 0x00, 0xed, 0x20, 0xfc, 0xb1, 0x5b, 0x6a, 0xcb, 0xbe, 0x39, 0x4a, 0x4c, 0x58, 0xcf],
   [0xd0, 0xef, 0xaa, 0xfb, 0x43, 0x4d, 0x33, 0x85, 0x45, 0xf9, 0x02, 0x7f, 0x50, 0x3c, 0x9f, 0xa8],
   [0x51, 0xa3, 0x40, 0x8f, 0x92, 0x9d, 0x38, 0xf5, 0xbc, 0xb6, 0xda, 0x21, 0x10, 0xff, 0xf3, 0xd2]] ++
  [[0xcd, 0x0c, 0x13, 0xec, 0x5f, 0x97, 0x44, 0x17, 0xc4, 0xa7, 0x7e, 0x3d, 0x64, 0x5d, 0x19, 0x73],
   [0x60, 0x81, 0x4f, 0xdc, 0x22, 0x2a, 0x90, 0x88, 0x46, 0xee, 0xb8, 0x14, 0xde, 0x5e, 0x0b, 0xdb],
   [0xe0, 0x32, 0x3a, 0x0a, 0x49, 0x06, 0x24, 0x5c, 0xc2, 0xd3, 0xac, 0x62, 0x91, 0x95, 0xe4, 0x79],
   [0xe7, 0xc8, 0x37, 0x6d, 0x8d, 0xd5, 0x4e, 0xa9, 0x6c, 0x56, 0xf4, 0xea, 0x65, 0x7a, 0xae, 0x08],
   [0xba, 0x78, 0x25, 0x2e, 0x1c, 0xa6, 0xb4, 0xc6, 0xe8, 0xdd, 0x74, 0x1f, 0x4b, 0xbd, 0x8b, 0x8a],
   [0x70, 0x3e, 0xb5, 0x66, 0x48, 0x03, 0xf6, 0x0e, 0x61, 0x35, 0x57, 0xb9, 0x86, 0xc1, 0x1d, 0x9e],
   [0xe1, 0xf8, 0x98, 0x11, 0x69, 0xd9, 0x8e, 0x94, 0x9b, 0x1e, 0x87, 0xe9, 0xce, 0x55, 0x28, 0xdf],
   [0x8c, 0xa1, 0x89, 0x0d, 0xbf, 0xe6, 0x42, 0x68, 0x41, 0x99, 0x2d, 0x0f, 0xb0, 0x54, 0xbb, 0x16]]

/-- `SBOX[b]`: the row of its high hex digit, the column of its low one (R123). -/
def sbox (b : Octet) : Octet := (sboxRows.getD (b.toNat / 16) []).getD (b.toNat % 16) 0

/-- `SubBytes` (R124). -/
def subBytes (s : Octets) : Octets := s.map sbox

/-- The input index of each output octet of `ShiftRows` (R125). -/
def shiftRowsIndices : List Nat := [0, 5, 10, 15, 4, 9, 14, 3, 8, 13, 2, 7, 12, 1, 6, 11]

/-- `ShiftRows` (R125). -/
def shiftRows (s : Octets) : Octets := shiftRowsIndices.map fun i => s.getD i 0

/-- `0x03 • a` = `xtime(a) ⊕ a` (R126). -/
def timesThree (a : Octet) : Octet := xtime a ^^^ a

/-- `MixColumns` on one column (R126). -/
def mixColumn (a0 a1 a2 a3 : Octet) : Octets :=
  [xtime a0 ^^^ timesThree a1 ^^^ a2 ^^^ a3,
   a0 ^^^ xtime a1 ^^^ timesThree a2 ^^^ a3,
   a0 ^^^ a1 ^^^ xtime a2 ^^^ timesThree a3,
   timesThree a0 ^^^ a1 ^^^ a2 ^^^ xtime a3]

/-- `MixColumns` (R126): the four columns start at octets 0, 4, 8 and 12 (R120). -/
def mixColumns (s : Octets) : Octets :=
  [0, 4, 8, 12].flatMap fun c =>
    mixColumn (s.getD c 0) (s.getD (c + 1) 0) (s.getD (c + 2) 0) (s.getD (c + 3) 0)

/-- `AddRoundKey` (R127). -/
def addRoundKey (s rk : Octets) : Octets := xorOctets s rk

/-- `RCON[i]` for i in 1..10 (R128). -/
def rcon (i : Nat) : Octet :=
  ([0x01, 0x02, 0x04, 0x08, 0x10, 0x20, 0x40, 0x80, 0x1B, 0x36] : Octets).getD (i - 1) 0

/-- `RotWord` (R129). -/
def rotWord (t : Octets) : Octets := t.drop 1 ++ t.take 1

/-- `SubWord` (R129). -/
def subWord (t : Octets) : Octets := t.map sbox

/-- `w[i]` of the key expansion for i ≥ 4, from the words before it (R129). -/
def nextKeyWord (ws : List Octets) (i : Nat) : Octets :=
  let t := ws.getD (i - 1) []
  let t := if i % 4 = 0 then xorOctets (subWord (rotWord t)) [rcon (i / 4), 0, 0, 0] else t
  xorOctets (ws.getD (i - 4) []) t

/-- `KeyExpansion(K)`: the words w[0..43] (R129). -/
def keyExpansion (K : Octets) : List Octets :=
  (List.range' 4 40).foldl (fun ws i => ws ++ [nextKeyWord ws i])
    ((List.range 4).map fun i => (K.drop (4 * i)).take 4)

/-- `RoundKey(j)` = w[4j] || w[4j+1] || w[4j+2] || w[4j+3] (R129). -/
def roundKey (ws : List Octets) (j : Nat) : Octets := ((ws.drop (4 * j)).take 4).flatten

/-- One of the rounds 1 to 9 (R130). -/
def aesRound (ws : List Octets) (s : Octets) (round : Nat) : Octets :=
  addRoundKey (mixColumns (shiftRows (subBytes s))) (roundKey ws round)

/-- The last round, without `MixColumns` (R130). -/
def aesLastRound (ws : List Octets) (s : Octets) : Octets :=
  addRoundKey (shiftRows (subBytes s)) (roundKey ws 10)

/-- `AES128(K, P)`: ten rounds (R130). -/
@[irreducible] def aes128 (K P : Octets) : Octets :=
  let ws := keyExpansion K
  aesLastRound ws ((List.range' 1 9).foldl (aesRound ws) (addRoundKey P (roundKey ws 0)))

end Sys2Proof.Machine
end

