-- ==== Sys2Proof/Machine/Modes.lean ====
section
/-! DEFINITION. The block modes (spec/41_block_modes.md): the counter increment (R160), the CBC chain (R161) and the
CTR keystream (R162). -/

namespace Sys2Proof.Machine

/-- `inc_W(A)`: adds 1 to the low-order W octets, read big-endian, modulo 2^(8W) (R160). -/
def incCounter (W : Nat) (A : Octets) : Octets :=
  A.take (16 - W) ++ bigEndian W ((intOfBigEndian (A.drop (16 - W)) + 1) % 2 ^ (8 * W))

/-- The chaining values after `Y`, one for each block (R161). -/
def cbcBlocks (K : Octets) : Octets → List Octets → List Octets
  | _, [] => []
  | Y, X :: Xs => aes128 K (xorOctets Y X) :: cbcBlocks K (aes128 K (xorOctets Y X)) Xs

/-- `CBCCHAIN(K, X)`, from a zero IV (R161). -/
def cbcChain (K X : Octets) : Octets := (cbcBlocks K (zeros 16) (blocks X)).flatten

/-- `CBCMAC(K, X)`: the last chaining value, for a non-empty X (R161). -/
def cbcMac (K X : Octets) : Octets := (cbcBlocks K (zeros 16) (blocks X)).getLastD (zeros 16)

/-- The counter blocks A_0, …, A_(q−1) (R162). -/
def counterBlocks (W : Nat) : Octets → Nat → List Octets
  | _, 0 => []
  | A, q + 1 => A :: counterBlocks W (incCounter W A) q

/-- The keystream S_0 || … || S_(q−1) (R162). -/
def keystream (K A : Octets) (W q : Nat) : Octets := (counterBlocks W A q).flatMap (aes128 K)

/-- q = ceil(len / 16), the number of keystream blocks (R162). -/
def keystreamBlocks (len : Nat) : Nat := (len + 15) / 16

/-- `CTR(K, A, W, D)` (R162). -/
def ctr (K A : Octets) (W : Nat) (D : Octets) : Octets :=
  xorOctets D (trunc (keystream K A W (keystreamBlocks D.length)) D.length)

end Sys2Proof.Machine
end

