-- ==== Sys2Proof/Machine/Ccm.lean ====
section
/-! DEFINITION. The pure functions of the contract on octet strings (spec/00_scope.md R15, spec/43_engine_contract.md
R233): ECB (R132), raw CBC (R165), raw CTR (R167) and the CCM* construction (spec/42_ccm_star.md R190 to R210). -/

namespace Sys2Proof.Machine

/-- What a pure function returns: the new buffer content with the reported length, or an error (R15). -/
inductive PureResult where
  /-- `Ok(out, n)`. -/
  | ok (out : Octets) (n : Nat)
  /-- `Err(code)`. -/
  | err (code : StatusCode)
deriving DecidableEq, Repr

/-- `F_ECB(K, B)` (R132). -/
def fEcb (K B : Octets) : PureResult :=
  if K.length ≠ 16 ∨ B.length ≠ 16 then .err .invalidLength else .ok (aes128 K B) 16

/-- `F_CBC_RAW(K, B)` (R165). -/
def fCbcRaw (K B : Octets) : PureResult :=
  if K.length ≠ 16 then .err .invalidLength
  else if !cbcLengthOk B.length then .err .invalidLength
  else .ok (cbcChain K B) B.length

/-- `F_CTR_RAW(K, IV, D)` with `RAW_CTR_WIDTH` = W (R167). -/
def fCtrRaw (W : Nat) (K IV D : Octets) : PureResult :=
  if K.length ≠ 16 ∨ IV.length ≠ 16 then .err .invalidLength
  else if !ctrLengthOk D.length then .err .invalidLength
  else .ok (ctr K IV W D) D.length

/-- The `Adata` bit: whether there is associated data (R193). -/
def adataBit (la : Nat) : Nat := if la > 0 then 1 else 0

/-- M' = (M − 2)/2 for M > 0, and 0 for M = 0 (R193). -/
def tagField (M : Nat) : Nat := if M > 0 then (M - 2) / 2 else 0

/-- The flags octet of B_0 (R193). -/
def flagsB0 (la L M : Nat) : Octet :=
  BitVec.ofNat 8 (adataBit la <<< 6 ||| tagField M <<< 3 ||| (L - 1))

/-- The header block B_0 = flagsB0 || N || be_L(len(m)) (R194). -/
def headerBlock (N : Octets) (L M la lm : Nat) : Octets :=
  flagsB0 la L M :: (N ++ bigEndian L lm)

/-- `ADB(a)`: the length-prefixed associated data, padded; empty when a is (R195). -/
def associatedBlocks (a : Octets) : Octets :=
  if a.length = 0 then [] else pad16 (bigEndian 2 a.length ++ a)

/-- `AuthIn(N, L, M, a, m)` (R196). -/
def authInput (N : Octets) (L M : Nat) (a m : Octets) : Octets :=
  headerBlock N L M a.length m.length ++ associatedBlocks a ++ pad16 m

/-- The counter block A_i = flagsA || N || be_L(i), with flagsA = L − 1 (R198). -/
def counterBlock (N : Octets) (L i : Nat) : Octets :=
  BitVec.ofNat 8 (L - 1) :: (N ++ bigEndian L i)

/-- The raw tag T (R197). -/
def rawTag (K N : Octets) (L M : Nat) (a m : Octets) : Octets :=
  trunc (cbcMac K (authInput N L M a m)) M

/-- The masked tag U = T xor trunc(S_0, M) (R200). -/
def maskedTag (K N : Octets) (L M : Nat) (a m : Octets) : Octets :=
  xorOctets (rawTag K N L M a m) (trunc (aes128 K (counterBlock N L 0)) M)

/-- Message encryption, and decryption, from counter 1 with a counter field of L octets (R199). -/
def ccmCrypt (K N : Octets) (L : Nat) (m : Octets) : Octets := ctr K (counterBlock N L 1) L m

/-- The R191 checks: L, M, and the nonce length 15 − L. -/
def ccmInputsOk (N : Octets) (L M : Nat) : Bool := ccmParametersOk L M && N.length == 15 - L

/-- `F_CCMS_ENC(K, N, L, M, a, m)` (R200). -/
def fCcmsEnc (K N : Octets) (L M : Nat) (a m : Octets) : PureResult :=
  if !ccmInputsOk N L M then .err .invalidParameter
  else if K.length ≠ 16 then .err .invalidLength
  else if !ccmEncLengthsOk a.length m.length M then .err .invalidLength
  else if M = 0 then .ok (ccmCrypt K N L m) m.length
  else .ok (ccmCrypt K N L m ++ maskedTag K N L M a m) (m.length + M)

/-- `F_CCMS_DEC(K, N, L, M, a, cu)` (R210): cu is the ciphertext followed by the received tag. -/
def fCcmsDec (K N : Octets) (L M : Nat) (a cu : Octets) : PureResult :=
  if !ccmInputsOk N L M then .err .invalidParameter
  else if K.length ≠ 16 then .err .invalidLength
  else if !ccmDecLengthsOk a.length cu.length M then .err .invalidLength
  else
    let lc := cu.length - M
    let p := ccmCrypt K N L (cu.take lc)
    let U := cu.drop lc
    if M = 0 then .ok p lc
    else if maskedTag K N L M a p = U then .ok (p ++ U) lc
    else .err .authenticationFailed

end Sys2Proof.Machine
end

