-- ==== Sys2Proof/Machine/Ops.lean ====
section
/-! DEFINITION. The operations every meaning is written with: octets of memory (spec/00_scope.md R14,
spec/20_memory.md R60), the interface registers (spec/10_state.md R32 to R37), ending a command with a status or a
fault (spec/60_exceptions.md R260, R268), and reset (spec/10_state.md R44). There is no trap entry and no return from
one (R271): `finish` and `raise` are the only two ways a command ends. -/

namespace Sys2Proof.Machine

/-! ### Memory -/

/-- What an address the memory list does not hold reads as (log entry 2). -/
def unlistedOctet : Octet := 0

/-- The octet at address x. -/
def readOctet : Memory → Nat → Octet
  | [], _ => unlistedOctet
  | (a, b) :: m, x => if x = a then b else readOctet m x

/-- Memory after the octet v is written at address x; a list in canonical form stays in it. -/
def writeOctet : Memory → Nat → Octet → Memory
  | [], x, v => if v = unlistedOctet then [] else [(x, v)]
  | (a, b) :: m, x, v =>
    if x < a then (if v = unlistedOctet then (a, b) :: m else (x, v) :: (a, b) :: m)
    else if x = a then (if v = unlistedOctet then m else (x, v) :: m)
    else (a, b) :: writeOctet m x v

/-- `MemRead(addr, n)`: the n octets at p, …, p+n−1, in address order (R14). -/
def readOctets (m : Memory) (p n : Nat) : Octets := (List.range n).map fun i => readOctet m (p + i)

/-- `MemWrite(addr, n, v)` for the n-octet string v (R14). -/
def writeOctets : Memory → Nat → Octets → Memory
  | m, _, [] => m
  | m, p, b :: bs => writeOctets (writeOctet m p b) (p + 1) bs

/-- The canonical form: addresses strictly rising from `low` on and inside the 2^32 octets of the bus, and no octet
listed that an unlisted address reads as. -/
def Memory.wfFrom : Nat → Memory → Bool
  | _, [] => true
  | low, (a, b) :: m =>
    decide (low ≤ a) && decide (a < Config.addrSpace) && !(b == unlistedOctet) && Memory.wfFrom (a + 1) m

/-- The memory list is in canonical form. -/
def Memory.wf (m : Memory) : Bool := Memory.wfFrom 0 m

/-! ### The platform -/

/-- `ENGINE_BASE`, a multiple of 32 (R71). -/
def engineBase (p : Platform) : Addr := p.engineBlock ++ (0 : BitVec 5)

/-- The register block's decoded range holds this address (R64, R71). -/
def inRegisterBlock (p : Platform) (a : Nat) : Bool :=
  decide ((engineBase p).toNat ≤ a) && decide (a < (engineBase p).toNat + 32 + p.decodedExtra)

/-- `MemAdmit(a)` (R60). -/
def memAdmit (p : Platform) (a : Nat) : Bool :=
  p.admitted.any fun r => decide (r.start ≤ a) && decide (a < r.start + r.len)

/-- `RAW_CTR_WIDTH`, 1 to 16 octets (R9). -/
def rawCtrWidth (p : Platform) : Nat := p.rawCtrWidthCode.val + 1

/-! ### Single updates of the state -/

/-- `STATUS.CODE <- c`. -/
def State.setStatus (s : State) (c : StatusCode) : State := { s with status := c }

/-- `INITIALIZED <- 1`, and with it `STATUS.INIT_DONE` (R38). -/
def State.setInitialized (s : State) : State := { s with initialized := true }

/-- `LEN_M <- n` (R37). -/
def State.setLenM (s : State) (n : Nat) : State := { s with lenM := BitVec.ofNat 32 n }

/-- `MemWrite(p, len v, v)` on the state's memory. -/
def State.storeOctets (s : State) (p : Nat) (v : Octets) : State :=
  { s with mem := writeOctets s.mem p v }

/-- The value a host read returned. -/
def State.observe (s : State) (v : Word) : State := { s with observed := v :: s.observed }

/-- n free values have been drawn. -/
def State.advanceDraws (s : State) (n : Nat) : State := { s with draws := s.draws + n }

/-- The host accesses still to come. -/
def State.setPending (s : State) (ops : List HostOp) : State := { s with pending := ops }

/-- `FAULTED <- f` (R40, R268). -/
def State.setFaulted (s : State) (f : Fault) : State := { s with faulted := some f }

/-! ### The interface registers -/

/-- The byte offset of a register in the block (R32). -/
def Reg.offset : Reg → Addr
  | .cmd => 0x00
  | .status => 0x04
  | .keyPtr => 0x08
  | .noncePtr => 0x0C
  | .aPtr => 0x10
  | .lenA => 0x14
  | .mPtr => 0x18
  | .lenM => 0x1C

/-- The register at a byte offset of the block, if one is there (R32). -/
def regAtOffset (off : Addr) : Option Reg :=
  match off.toNat with
  | 0x00 => some .cmd
  | 0x04 => some .status
  | 0x08 => some .keyPtr
  | 0x0C => some .noncePtr
  | 0x10 => some .aPtr
  | 0x14 => some .lenA
  | 0x18 => some .mPtr
  | 0x1C => some .lenM
  | _ => none

/-- The register a host access reaches: only an aligned 32-bit access at an offset 0x00 to 0x1C reaches one (R64). -/
def accessedReg (size : AccessSize) (off : Addr) : Option Reg :=
  match size with
  | .word => regAtOffset off
  | .half => none
  | .octet => none

/-- What a host read of a register returns (R32 to R37): `CMD` reads 0. -/
def readReg (s : State) : Reg → Word
  | .cmd => 0
  | .status => statusWord s.initialized s.status
  | .keyPtr => s.keyPtr
  | .noncePtr => s.noncePtr
  | .aPtr => s.aPtr
  | .lenA => s.lenA
  | .mPtr => s.mPtr
  | .lenM => s.lenM

/-- What a host write stores in a register (R32 to R37): a write to `STATUS` is ignored, and `CMD` has no storage
(the command a write to it issues is no matter of storage, R34). -/
def State.writeReg (s : State) : Reg → Word → State
  | .cmd, _ => s
  | .status, _ => s
  | .keyPtr, v => { s with keyPtr := v }
  | .noncePtr, v => { s with noncePtr := v }
  | .aPtr, v => { s with aPtr := v }
  | .lenA, v => { s with lenA := v }
  | .mPtr, v => { s with mPtr := v }
  | .lenM, v => { s with lenM := v }

/-! ### How a command ends -/

/-- The command completes with this status and changes nothing else (R42, R266). -/
def finish (s : State) (c : StatusCode) : StepResult := .next (s.setStatus c)

/-- `raise Fault(f)` (R14, R268). -/
def raise (f : Fault) : StepResult := .fault f

/-- Step 2 of R230 for every command but `INIT`. -/
def whenInitialized (s : State) (body : StepResult) : StepResult :=
  if s.initialized then body else raise .notInitialized

/-! ### Reset -/

/-- Reset (R44, R290, R293): the engine's state as after reset, the six pointer and length registers drawn anew,
bus memory unchanged. -/
def State.applyReset (s : State) : State :=
  { s with
    initialized := false
    status := .none
    keyPtr := Config.resetDraw s.draws s.keyPtr
    noncePtr := Config.resetDraw (s.draws + 1) s.noncePtr
    aPtr := Config.resetDraw (s.draws + 2) s.aPtr
    lenA := Config.resetDraw (s.draws + 3) s.lenA
    mPtr := Config.resetDraw (s.draws + 4) s.mPtr
    lenM := Config.resetDraw (s.draws + 5) s.lenM
    faulted := none
    draws := s.draws + 6 }

end Sys2Proof.Machine
end

