-- ==== Sys2Proof/Machine/Operands.lean ====
section
/-! DEFINITION. The operand regions of the commands (spec/30_encoding.md R95), the region checks (spec/20_memory.md
R61, R62, R63), and reading and writing operands. -/

namespace Sys2Proof.Machine

/-- The region does not stay below the top of the address space (R61 condition 1, R62). -/
def regionWraps (r : Region) : Bool :=
  !(r.len == 0) && decide (Config.addrSpace < r.start + r.len)

/-- The region holds an address where `MemAdmit` fails (R61 condition 2, R62). -/
def regionUnadmitted (p : Platform) (r : Region) : Bool :=
  (List.range r.len).any fun i => decide (r.start + i < Config.addrSpace) && !memAdmit p (r.start + i)

/-- The two regions share an address (R63). -/
def regionsOverlap (r t : Region) : Bool :=
  !(r.len == 0) && !(t.len == 0) && decide (r.start < t.start + t.len) && decide (t.start < r.start + r.len)

/-- The fault of R62 for the regions a command uses. Where one region wraps and another, or the same one, is not
admitted, the spec does not say which of the two reasons is recorded (U15; log entry 8). -/
def regionFault (s : State) (rs : List Region) : Option Fault :=
  match rs.any regionWraps, rs.any (regionUnadmitted s.platform) with
  | false, false => none
  | true, false => some .regionWraps
  | false, true => some .regionNotAdmitted
  | true, true => some (if Config.recordsWrap s.draws rs then .regionWraps else .regionNotAdmitted)

/-- The checks of R62, then those of R63, for the regions a command only reads and the one it writes (R265 step 5). -/
def operandFault (s : State) (readOnly : List Region) (written : Region) : Option Fault :=
  match regionFault s (readOnly ++ [written]) with
  | some f => some f
  | none => if readOnly.any (regionsOverlap written) then some .operandOverlap else none

/-- Runs the rest of a command when its regions pass the checks (R62, R63). -/
def whenOperandsOk (s : State) (readOnly : List Region) (written : Region) (body : StepResult) : StepResult :=
  match operandFault s readOnly written with
  | some f => raise f
  | none => body

/-- The key region (`KEY_PTR`, 16) (R95). -/
def keyRegion (s : State) : Region := ⟨s.keyPtr.toNat, Config.keyLen⟩

/-- The nonce or IV region (`NONCE_PTR`, n): 15 − L octets for CCM*, 16 for raw CTR (R95, R96). -/
def nonceRegion (s : State) (n : Nat) : Region := ⟨s.noncePtr.toNat, n⟩

/-- The associated-data region (`A_PTR`, `LEN_A`) (R95). -/
def dataRegion (s : State) : Region := ⟨s.aPtr.toNat, s.lenA.toNat⟩

/-- The message region (`M_PTR`, n) (R95). -/
def messageRegion (s : State) (n : Nat) : Region := ⟨s.mPtr.toNat, n⟩

/-- The octets of a region. -/
def readRegion (s : State) (r : Region) : Octets := readOctets s.mem r.start r.len

/-- Writes a string at `M_PTR`. -/
def storeMessage (s : State) (v : Octets) : State := s.storeOctets s.mPtr.toNat v

/-- The n octets drawn for the buffer of a failed decryption; `seen` is all that the command read (R213; log
entry 7). -/
def drawOctets (s : State) (n : Nat) (seen : Octets) : Octets :=
  (List.range n).map fun i => Config.failureOctet (s.draws + i) seen

/-- A raw command's end: the result is written in place and `LEN_M` stays (R133, R166, R168). -/
def deliverRaw (s : State) : PureResult → StepResult
  | .ok out _ => finish (storeMessage s out) .success
  | .err c => finish s c

end Sys2Proof.Machine
end

