-- ==== Sys2Proof/Machine/CcmStar.lean ====
section
/-! DEFINITION. The authenticated-encryption commands `CCMS_ENC` and `CCMS_DEC` (spec/42_ccm_star.md R201, R211). -/

namespace Sys2Proof.Machine

/-- The regions a CCM* command only reads: key, nonce of 15 − L octets, associated data (R95). -/
def ccmReadOnly (s : State) (L : Nat) : List Region := [keyRegion s, nonceRegion s (15 - L), dataRegion s]

/-- `F_CCMS_ENC` on the operands of `CCMS_ENC`; the M octets after the message are not read (R201, D32). -/
def ccmsEncResult (s : State) (L M : Nat) : PureResult :=
  fCcmsEnc (readRegion s (keyRegion s)) (readRegion s (nonceRegion s (15 - L))) L M (readRegion s (dataRegion s))
    (readRegion s (messageRegion s s.lenM.toNat))

/-- `F_CCMS_DEC` on the operands of `CCMS_DEC` (R211). -/
def ccmsDecResult (s : State) (L M : Nat) : PureResult :=
  fCcmsDec (readRegion s (keyRegion s)) (readRegion s (nonceRegion s (15 - L))) L M (readRegion s (dataRegion s))
    (readRegion s (messageRegion s s.lenM.toNat))

/-- A successful CCM* command: the result is written in place, `LEN_M` takes the reported length, and the status is
`Success`, in that order (R66, R201, R211). -/
def deliverCcm (s : State) (out : Octets) (n : Nat) : StepResult :=
  finish ((storeMessage s out).setLenM n) .success

/-- Everything a `CCMS_DEC` reads: key, nonce, associated data, message. -/
def ccmOctetsRead (s : State) (L : Nat) : Octets :=
  readRegion s (keyRegion s) ++ readRegion s (nonceRegion s (15 - L)) ++ readRegion s (dataRegion s) ++
    readRegion s (messageRegion s s.lenM.toNat)

/-- The buffer of a failed decryption takes any value; `LEN_M` stays (R211, R213). -/
def scrambleMessage (s : State) (L : Nat) : State :=
  (storeMessage s (drawOctets s s.lenM.toNat (ccmOctetsRead s L))).advanceDraws s.lenM.toNat

/-- `CCMS_ENC` (R201): CCM* authenticated encryption in place; the written region is `LEN_M` + M octets long. -/
def execCcmsEnc (L M : Nat) (s : State) : StepResult :=
  whenInitialized s <|
    if !ccmParametersOk L M then finish s .invalidParameter
    else if !ccmEncLengthsOk s.lenA.toNat s.lenM.toNat M then finish s .invalidLength
    else
      whenOperandsOk s (ccmReadOnly s L) (messageRegion s (s.lenM.toNat + M)) <|
        match ccmsEncResult s L M with
        | .ok out n => deliverCcm s out n
        | .err c => finish s c

/-- `CCMS_DEC` (R211): CCM* authenticated decryption in place. -/
def execCcmsDec (L M : Nat) (s : State) : StepResult :=
  whenInitialized s <|
    if !ccmParametersOk L M then finish s .invalidParameter
    else if !ccmDecLengthsOk s.lenA.toNat s.lenM.toNat M then finish s .invalidLength
    else
      whenOperandsOk s (ccmReadOnly s L) (messageRegion s s.lenM.toNat) <|
        match ccmsDecResult s L M with
        | .ok out n => deliverCcm s out n
        | .err .authenticationFailed => finish (scrambleMessage s L) .authenticationFailed
        | .err c => finish s c

end Sys2Proof.Machine
end

