-- ==== Sys2Proof/Machine/RawModes.lean ====
section
/-! DEFINITION. The raw commands `ECB_ENC` (spec/40_block_cipher.md R133), `CBC_ENC_RAW` and `CTR_ENC_RAW`
(spec/41_block_modes.md R166, R168). None of them reads its `L` or `MAC` field (R94) or writes `LEN_M`. -/

namespace Sys2Proof.Machine

/-- `ECB_ENC` (R133): encrypt one block in place. -/
def execEcbEnc (_l _mac : Nat) (s : State) : StepResult :=
  whenInitialized s <|
    if !ecbLengthOk s.lenM.toNat then finish s .invalidLength
    else
      whenOperandsOk s [keyRegion s] (messageRegion s 16) <|
        deliverRaw s (fEcb (readRegion s (keyRegion s)) (readRegion s (messageRegion s 16)))

/-- `CBC_ENC_RAW` (R166): CBC-encrypt a buffer in place from a zero IV. -/
def execCbcEncRaw (_l _mac : Nat) (s : State) : StepResult :=
  whenInitialized s <|
    if !cbcLengthOk s.lenM.toNat then finish s .invalidLength
    else
      whenOperandsOk s [keyRegion s] (messageRegion s s.lenM.toNat) <|
        deliverRaw s (fCbcRaw (readRegion s (keyRegion s)) (readRegion s (messageRegion s s.lenM.toNat)))

/-- `CTR_ENC_RAW` (R168): CTR-encrypt or decrypt a buffer in place. An empty message succeeds with no memory access,
before any region is checked. -/
def execCtrEncRaw (_l _mac : Nat) (s : State) : StepResult :=
  whenInitialized s <|
    if !ctrLengthOk s.lenM.toNat then finish s .invalidLength
    else if s.lenM.toNat = 0 then finish s .success
    else
      whenOperandsOk s [keyRegion s, nonceRegion s 16] (messageRegion s s.lenM.toNat) <|
        deliverRaw s
          (fCtrRaw (rawCtrWidth s.platform) (readRegion s (keyRegion s)) (readRegion s (nonceRegion s 16))
            (readRegion s (messageRegion s s.lenM.toNat)))

end Sys2Proof.Machine
end

