-- ==== Sys2Proof/Machine/Setup.lean ====
section
/-! DEFINITION. The set-up command `INIT` (spec/43_engine_contract.md R230, R231). -/

namespace Sys2Proof.Machine

/-- `INIT` (R231): sets `INITIALIZED` and reports `Success`; a second `INIT` is `DoubleInit` (R230 step 2). The
fields are ignored (R94). -/
def execInit (_l _mac : Nat) (s : State) : StepResult :=
  if s.initialized then raise .doubleInit else finish s.setInitialized .success

end Sys2Proof.Machine
end

