-- ==== Sys2Proof/Machine/Dispatch.lean ====
section
/-! DEFINITION. One command run against the state: step 3 of spec/43_engine_contract.md R230, one arm per command.
Each meaning makes the check of step 2 itself. -/

namespace Sys2Proof.Machine

def exec (i : Instr) (s : State) : Host.Outcome State Fault Refusal :=
  match i with
  | .init l mac => Sys2Proof.Machine.execInit l mac s
  | .ccmsEnc l mac => Sys2Proof.Machine.execCcmsEnc l mac s
  | .ccmsDec l mac => Sys2Proof.Machine.execCcmsDec l mac s
  | .cbcEncRaw l mac => Sys2Proof.Machine.execCbcEncRaw l mac s
  | .ctrEncRaw l mac => Sys2Proof.Machine.execCtrEncRaw l mac s
  | .ecbEnc l mac => Sys2Proof.Machine.execEcbEnc l mac s

end Sys2Proof.Machine
end

