-- ==== Sys2Proof/Machine/HostAccess.lean ====
section
/-! DEFINITION. What each event on the bus does (spec/20_memory.md R64, R73): a `CMD` write runs one command
(spec/43_engine_contract.md R230), other accesses read or write a register or an octet of memory, and a reset may
arrive between accesses (R290). The host's command language (spec/30_encoding.md R99, R100) is spelled in these
events. -/

namespace Sys2Proof.Machine

/-- A host write of w to `CMD` (R34, R230): a reserved word ends with `InvalidParameter` before any other check
(R97); a command runs. -/
def issueCommand (w : Word) (s : State) : StepResult :=
  match decode w with
  | .reserved _ => finish s .invalidParameter
  | .command i => exec i s

/-- A host write that reaches a register (R32, R34). -/
def hostRegWrite (r : Reg) (v : Word) (s : State) : StepResult :=
  match r with
  | .cmd => issueCommand v s
  | _ => .next (s.writeReg r v)

/-- One event. Octet accesses inside the register block's decoded range are register accesses that are not 32-bit
(R64). -/
def hostAccess (op : HostOp) (s : State) : StepResult :=
  match op with
  | .regWrite size off v =>
    match accessedReg size off with
    | some r => hostRegWrite r v s
    | none => raise .badRegisterAccess
  | .regRead size off =>
    match accessedReg size off with
    | some r => .next (s.observe (readReg s r))
    | none => raise .badRegisterAccess
  | .octetWrite a v =>
    if inRegisterBlock s.platform a.toNat then raise .badRegisterAccess
    else .next (s.storeOctets a.toNat [v])
  | .octetRead a =>
    if inRegisterBlock s.platform a.toNat then raise .badRegisterAccess
    else .next (s.observe ((readOctet s.mem a.toNat).setWidth 32))
  | .reset => .next s.applyReset

/-! ### The host's command language -/

/-- `wr <REG>, <value>` (R99). -/
def hostWr (r : Reg) (v : Word) : HostOp := .regWrite .word r.offset v

/-- `rd <REG>` (R99). -/
def hostRd (r : Reg) : HostOp := .regRead .word r.offset

/-- A command mnemonic: `wr CMD, <word>` (R99). -/
def hostCmd (i : Instr) : HostOp := hostWr .cmd (encode i)

/-- `mem <addr>: <octets>` (R99), as host writes in address order. DESIGN CHOICE: R99 does not say what the statement
places when its octets pass address 2^32 − 1; here the address wraps modulo 2^32, so the octet after that address goes
to address 0 (log entry 18). -/
def hostMem (addr : Addr) (v : Octets) : List HostOp :=
  v.zipIdx.map fun bi => .octetWrite (addr + BitVec.ofNat 32 bi.2) bi.1

/-- The operand writes of `call.ccms_enc` and `call.ccms_dec` (R100). -/
def ccmOperandWrites (a lenA m lenM nonce key : Word) : List HostOp :=
  [hostWr .aPtr a, hostWr .lenA lenA, hostWr .mPtr m, hostWr .lenM lenM, hostWr .noncePtr nonce, hostWr .keyPtr key]

/-- `call.ccms_enc` (R100). -/
def callCcmsEnc (a lenA m lenM nonce : Word) (l : Nat) (key : Word) (mac : Nat) : List HostOp :=
  ccmOperandWrites a lenA m lenM nonce key ++ [hostCmd (.ccmsEnc l mac)]

/-- `call.ccms_dec` (R100). -/
def callCcmsDec (a lenA m lenM nonce : Word) (l : Nat) (key : Word) (mac : Nat) : List HostOp :=
  ccmOperandWrites a lenA m lenM nonce key ++ [hostCmd (.ccmsDec l mac)]

/-- `call.cbc_raw` (R100). -/
def callCbcRaw (buf len key : Word) : List HostOp :=
  [hostWr .mPtr buf, hostWr .lenM len, hostWr .keyPtr key, hostCmd (.cbcEncRaw 0 0)]

/-- `call.ctr_raw` (R100). -/
def callCtrRaw (buf len key iv : Word) : List HostOp :=
  [hostWr .mPtr buf, hostWr .lenM len, hostWr .keyPtr key, hostWr .noncePtr iv, hostCmd (.ctrEncRaw 0 0)]

/-- `call.ecb` (R100). -/
def callEcb (buf key : Word) : List HostOp :=
  [hostWr .mPtr buf, hostWr .lenM 16, hostWr .keyPtr key, hostCmd (.ecbEnc 0 0)]

/-- `call.init` (R100). -/
def callInit : List HostOp := [hostCmd (.init 0 0)]

end Sys2Proof.Machine
end

