-- ==== Sys2Proof/Machine/Step.lean ====
section
/-! DEFINITION. One step of the machine: the next event of the host's list takes effect (spec/20_memory.md R73). -/

namespace Sys2Proof.Machine

/-- One step. After a fault no step follows (R40); with no access pending the engine is idle (R277, R291). -/
def step (s : State) : Host.Outcome State Fault Refusal :=
  match s.faulted with
  | some f => raise f
  | none =>
    match s.pending with
    | [] => .next s
    | op :: rest => hostAccess op (s.setPending rest)

/-- The state whose next host access is the `CMD` write of this word (R34): a command is issued by that one write,
and nothing else is fetched (R76). -/
def State.withFetchWord (s : State) (nbits w : Nat) : State :=
  s.setPending (hostWr .cmd (tableWord nbits w) :: s.pending)

end Sys2Proof.Machine
end

