-- ==== Sys2Proof/Safety.lean ====
section
/-! DEFINITION. The words claims are stated in: what a valid operand is, what a command leaves alone, the invariant
of the machine, and runs. Nothing here adds to what the machine does. -/

namespace Sys2Proof.Machine

/-! ### Operands -/

/-- The region denotes address a (R61). -/
def RegionHolds (r : Region) (a : Nat) : Prop := r.start ≤ a ∧ a < r.start + r.len

/-- A region is valid when it is empty, or does not wrap and is admitted throughout (R61). -/
def RegionValid (p : Platform) (r : Region) : Prop :=
  r.len = 0 ∨ (r.start + r.len ≤ Config.addrSpace ∧ ∀ a, RegionHolds r a → memAdmit p a = true)

/-- The two regions share no address (R63). -/
def RegionsDisjoint (r t : Region) : Prop := ∀ a, ¬ (RegionHolds r a ∧ RegionHolds t a)

/-- The operands of a command pass the checks of R62 and R63. -/
def OperandsOk (s : State) (readOnly : List Region) (written : Region) : Prop :=
  (∀ r ∈ readOnly, RegionValid s.platform r) ∧ RegionValid s.platform written ∧
    ∀ r ∈ readOnly, RegionsDisjoint written r

/-- The regions a command only reads (R95). -/
def readOnlyRegions (i : Instr) (s : State) : List Region :=
  match i with
  | .init _ _ => []
  | .ccmsEnc l _ => ccmReadOnly s l
  | .ccmsDec l _ => ccmReadOnly s l
  | .cbcEncRaw _ _ => [keyRegion s]
  | .ctrEncRaw _ _ => [keyRegion s, nonceRegion s 16]
  | .ecbEnc _ _ => [keyRegion s]

/-- The region a command may write (R69, R95): `CCMS_ENC` writes M octets beyond the message. -/
def writtenRegion (i : Instr) (s : State) : Region :=
  match i with
  | .init _ _ => messageRegion s 0
  | .ccmsEnc _ mac => messageRegion s (s.lenM.toNat + mac)
  | .ccmsDec _ _ => messageRegion s s.lenM.toNat
  | .cbcEncRaw _ _ => messageRegion s s.lenM.toNat
  | .ctrEncRaw _ _ => messageRegion s s.lenM.toNat
  | .ecbEnc _ _ => messageRegion s 16

/-- The parameter and length checks of the command pass (R261, R262, R265 steps 3 and 4). -/
def argumentsOk (i : Instr) (s : State) : Bool :=
  match i with
  | .init _ _ => true
  | .ccmsEnc l mac => ccmParametersOk l mac && ccmEncLengthsOk s.lenA.toNat s.lenM.toNat mac
  | .ccmsDec l mac => ccmParametersOk l mac && ccmDecLengthsOk s.lenA.toNat s.lenM.toNat mac
  | .cbcEncRaw _ _ => cbcLengthOk s.lenM.toNat
  | .ctrEncRaw _ _ => ctrLengthOk s.lenM.toNat
  | .ecbEnc _ _ => ecbLengthOk s.lenM.toNat

/-! ### What a step leaves alone -/

/-- The registers no command writes, and everything outside the engine that a command does not touch (R35, R37,
R40, R41). -/
def KeepsHostSide (s t : State) : Prop :=
  t.keyPtr = s.keyPtr ∧ t.noncePtr = s.noncePtr ∧ t.aPtr = s.aPtr ∧ t.lenA = s.lenA ∧ t.mPtr = s.mPtr ∧
    t.faulted = s.faulted ∧ t.platform = s.platform ∧ t.pending = s.pending ∧ t.observed = s.observed

/-- Every octet outside the region reads as before (R69). -/
def KeepsMemoryOutside (r : Region) (s t : State) : Prop :=
  ∀ a, ¬ RegionHolds r a → readOctet t.mem a = readOctet s.mem a

/-- The octets of a region, as the state's memory holds them. -/
def SameOctets (r : Region) (s t : State) : Prop :=
  ∀ a, RegionHolds r a → readOctet s.mem a = readOctet t.mem a

/-! ### The invariant -/

/-- The memory list is canonical, an initialised engine has completed a command (R231, R264), and no fault is
recorded (R40). -/
def machineInvariant (s : State) : Prop :=
  Memory.wf s.mem = true ∧ (s.initialized = true → s.status ≠ .none) ∧ s.faulted = none

/-! ### Runs -/

/-- A step with `FAULTED` recorded (R40, R268): on a fault the other fields mean nothing. -/
def advance (s : State) : State :=
  match step s with
  | .next t => t
  | .fault f => s.setFaulted f
  | .refused _ => s

/-- The event resets the machine. -/
def HostOp.isReset : HostOp → Bool
  | .reset => true
  | .regWrite _ _ _ => false
  | .regRead _ _ => false
  | .octetWrite _ _ => false
  | .octetRead _ => false

end Sys2Proof.Machine
end

