-- ==== Sys2Proof/Certificates/Slice0/Obligations.lean ====
section
/-! DEFINITION. The statements about the model, for the provers. Each says in its docstring which sentence of the spec
it formalises; those that rest on a choice of the model's name the log entry. -/

open Sys2Proof Sys2Proof.Machine

/-! ### Encoding (spec/30_encoding.md) -/

/-- Sections 1, 2 and 5: the decoder reads back every command the assembler's word format can spell, with every `L` in
0..15 and every `MAC` in 0..31. -/
def Obligations.DecodeOfEncodeIsIdentity : Prop :=
  ∀ i : Instr, i.wellFormed = true → decode (encode i) = .command i

/-- Section 4: each word has one reading; a word that decodes to a command is that command's word, and the command
fits its fields. -/
def Obligations.EncodeOfDecodeIsIdentity : Prop :=
  ∀ (w : Word) (i : Instr), decode w = .command i → i.wellFormed = true ∧ encode i = w

/-- R98, with spec/opcode_table.json: the decoder is total; a word decodes to the command of a row exactly when its
fixed bits are the row's, its fields are w[7:4] and w[12:8], and a word is reserved exactly when `OP` is no row's or
`RSV` is not 0. -/
def Obligations.DecodeAgreesWithOpcodeTable : Prop :=
  (∀ (w : Word) (i : Instr), decode w = .command i →
    w &&& 0xFFFFE00F = BitVec.ofNat 32 (opcode i) ∧ i.lField = (w.extractLsb' 4 4).toNat ∧
      i.macField = (w.extractLsb' 8 5).toNat) ∧
  (∀ (w : Word) (n : Nat), 1 ≤ n → n ≤ 6 → w &&& 0xFFFFE00F = BitVec.ofNat 32 n →
    ∃ i, decode w = .command i ∧ opcode i = n) ∧
  (∀ w : Word, (∃ why, decode w = .reserved why) ↔
    ((w.extractLsb' 0 4).toNat = 0 ∨ 7 ≤ (w.extractLsb' 0 4).toNat ∨ w.extractLsb' 13 19 ≠ 0))

/-- Section 5, the words of the encoding examples. -/
def Obligations.DecodeReadsTheExampleWords : Prop :=
  decode 0x00000001 = .command (.init 0 0) ∧ decode 0x00000822 = .command (.ccmsEnc 2 8) ∧
  decode 0x00000823 = .command (.ccmsDec 2 8) ∧ decode 0x00001022 = .command (.ccmsEnc 2 16) ∧
  decode 0x00000423 = .command (.ccmsDec 2 4) ∧ decode 0x00000482 = .command (.ccmsEnc 8 4) ∧
  decode 0x00000004 = .command (.cbcEncRaw 0 0) ∧ decode 0x00000005 = .command (.ctrEncRaw 0 0) ∧
  decode 0x00000006 = .command (.ecbEnc 0 0) ∧ decode 0x00000F26 = .command (.ecbEnc 2 15) ∧
  decode 0x00000000 = .reserved .reservedOp ∧ decode 0x00002006 = .reserved .reservedBits

/-! ### Dispatch (spec/43_engine_contract.md section 1) -/

/-- A step whose next host access is a `CMD` write of a command's word runs that command on the state with the access
taken from the list; nothing else is added around it. That the host's accesses stand in a list is the model's choice
(log entry 4). -/
def Obligations.StepRunsDecodedCommand : Prop :=
  ∀ (s : State) (rest : List HostOp) (w : Word) (i : Instr),
    s.faulted = none → s.pending = hostWr .cmd w :: rest → decode w = .command i →
    step s = exec i (s.setPending rest)

/-- R97: a reserved word reports `InvalidParameter`, value 2, changes nothing else, and never faults, whether the
engine is initialised or not; every other word is a command. -/
def Obligations.ReservedWordReportsInvalidParameter : Prop :=
  ∀ w : Word,
    if (w.extractLsb' 0 4).toNat = 0 ∨ 7 ≤ (w.extractLsb' 0 4).toNat ∨ w.extractLsb' 13 19 ≠ 0 then
      ∀ (s : State) (rest : List HostOp), s.faulted = none → s.pending = hostWr .cmd w :: rest →
        step s = .next ((s.setPending rest).setStatus .invalidParameter) ∧
        (readReg ((s.setPending rest).setStatus .invalidParameter) .status).extractLsb' 0 3 = 2
    else ∃ i, decode w = .command i

/-- The rule of `INIT`: on an engine not yet initialised it sets `INITIALIZED` and reports `Success`, so that `STATUS`
reads 0x00000101; everything else stays. -/
def Obligations.InitCompletes : Prop :=
  ∀ (l mac : Nat) (s : State), s.initialized = false →
    exec (.init l mac) s = .next (s.setInitialized.setStatus .success) ∧
    readReg (s.setInitialized.setStatus .success) .status = 0x00000101

/-- Step 2 of dispatch: a second `INIT`, and any other command before `INIT`, is a fault, whatever its fields and
operands. -/
def Obligations.CommandsOutOfOrderFault : Prop :=
  (∀ (l mac : Nat) (s : State), s.initialized = true → exec (.init l mac) s = .fault .doubleInit) ∧
  (∀ (i : Instr) (s : State), s.initialized = false → opcode i ≠ 1 → exec i s = .fault .notInitialized)

/-- spec/30_encoding.md section 3: `INIT`, `CBC_ENC_RAW`, `CTR_ENC_RAW` and `ECB_ENC` give the same result for every
value of their `L` and `MAC` fields. That this takes in the reason of a fault which R62 and U15 leave unspecified is
the model's choice: its free choice of the reason does not depend on the fields (log entry 8). -/
def Obligations.UnusedFieldsAreIgnored : Prop :=
  ∀ (l mac l' mac' : Nat) (s : State),
    exec (.init l mac) s = exec (.init l' mac') s ∧ exec (.cbcEncRaw l mac) s = exec (.cbcEncRaw l' mac') s ∧
    exec (.ctrEncRaw l mac) s = exec (.ctrEncRaw l' mac') s ∧ exec (.ecbEnc l mac) s = exec (.ecbEnc l' mac') s

/-! ### Errors reported as a status (spec/60_exceptions.md sections 2 and 3) -/

/-- A CCM* command with L outside {2..8} or M outside {0, 4, 8, 16} reports `InvalidParameter` and changes nothing
else, whatever its lengths and regions (parameters come first). -/
def Obligations.UnacceptedParametersReported : Prop :=
  ∀ (L M : Nat) (s : State), s.initialized = true →
    (L < 2 ∨ 8 < L ∨ (M ≠ 0 ∧ M ≠ 4 ∧ M ≠ 8 ∧ M ≠ 16)) →
    exec (.ccmsEnc L M) s = .next (s.setStatus .invalidParameter) ∧
    exec (.ccmsDec L M) s = .next (s.setStatus .invalidParameter)

/-- Each length a command does not accept reports `InvalidLength` and changes nothing else, whatever its regions
(lengths come before regions and after parameters). -/
def Obligations.UnacceptedLengthsReported : Prop :=
  ∀ s : State, s.initialized = true →
    (∀ l mac : Nat, s.lenM.toNat ≠ 16 → exec (.ecbEnc l mac) s = .next (s.setStatus .invalidLength)) ∧
    (∀ l mac : Nat, (s.lenM.toNat = 0 ∨ s.lenM.toNat % 16 ≠ 0 ∨ 255 < s.lenM.toNat) →
      exec (.cbcEncRaw l mac) s = .next (s.setStatus .invalidLength)) ∧
    (∀ l mac : Nat, 255 < s.lenM.toNat → exec (.ctrEncRaw l mac) s = .next (s.setStatus .invalidLength)) ∧
    (∀ L M : Nat, 2 ≤ L → L ≤ 8 → (M = 0 ∨ M = 4 ∨ M = 8 ∨ M = 16) →
      (255 < s.lenA.toNat ∨ 255 < s.lenM.toNat + M) →
      exec (.ccmsEnc L M) s = .next (s.setStatus .invalidLength)) ∧
    (∀ L M : Nat, 2 ≤ L → L ≤ 8 → (M = 0 ∨ M = 4 ∨ M = 8 ∨ M = 16) →
      (255 < s.lenA.toNat ∨ 255 < s.lenM.toNat ∨ s.lenM.toNat < M) →
      exec (.ccmsDec L M) s = .next (s.setStatus .invalidLength))

/-- R266, which the spec marks as derived from its R265 and R69: a command that ends with `InvalidParameter` or
`InvalidLength` changes nothing but `STATUS.CODE`, and makes no memory access: it ends the same way whatever memory
holds. -/
def Obligations.RejectedCommandChangesOnlyStatus : Prop :=
  ∀ (i : Instr) (s t : State), exec i s = .next t →
    (t.status = .invalidParameter ∨ t.status = .invalidLength) →
    t = s.setStatus t.status ∧
    ∀ m : Memory, exec i { s with mem := m } = .next (State.setStatus { s with mem := m } t.status)

/-- spec/10_state.md section 5: which codes each command can write. -/
def Obligations.CommandsWriteTheirListedCodes : Prop :=
  ∀ (i : Instr) (s t : State), exec i s = .next t →
    match i with
    | .init _ _ => t.status = .success
    | .ecbEnc _ _ => t.status = .success ∨ t.status = .invalidLength
    | .cbcEncRaw _ _ => t.status = .success ∨ t.status = .invalidLength
    | .ctrEncRaw _ _ => t.status = .success ∨ t.status = .invalidLength
    | .ccmsEnc _ _ => t.status = .success ∨ t.status = .invalidParameter ∨ t.status = .invalidLength
    | .ccmsDec _ mac => t.status = .success ∨ t.status = .invalidParameter ∨ t.status = .invalidLength ∨
        (t.status = .authenticationFailed ∧ 0 < mac)

/-! ### The raw commands (spec/40_block_cipher.md, spec/41_block_modes.md) -/

/-- The rule of `ECB_ENC`: on a 16-octet message with operands in order it replaces the block by `AES128(K, B)` and
reports `Success`; `LEN_M` and everything else stay. -/
def Obligations.EcbEncCompletes : Prop :=
  ∀ (l mac : Nat) (s : State), s.initialized = true → s.lenM.toNat = 16 →
    OperandsOk s [keyRegion s] (messageRegion s 16) →
    let c := aes128 (readRegion s (keyRegion s)) (readRegion s (messageRegion s 16))
    let t := (storeMessage s c).setStatus .success
    exec (.ecbEnc l mac) s = .next t ∧ c.length = 16 ∧
      (Memory.wf s.mem = true → readRegion t (messageRegion s 16) = c)

/-- The rule of `CBC_ENC_RAW`: a non-empty whole number of blocks, at most 255 octets, is replaced by its CBC chain
from a zero IV. -/
def Obligations.CbcEncRawCompletes : Prop :=
  ∀ (l mac : Nat) (s : State), s.initialized = true → 0 < s.lenM.toNat → s.lenM.toNat % 16 = 0 →
    s.lenM.toNat ≤ 255 → OperandsOk s [keyRegion s] (messageRegion s s.lenM.toNat) →
    let c := cbcChain (readRegion s (keyRegion s)) (readRegion s (messageRegion s s.lenM.toNat))
    let t := (storeMessage s c).setStatus .success
    exec (.cbcEncRaw l mac) s = .next t ∧ c.length = s.lenM.toNat ∧
      (Memory.wf s.mem = true → readRegion t (messageRegion s s.lenM.toNat) = c)

/-- The rule of `CTR_ENC_RAW`: a message of 1 to 255 octets is combined with the keystream from the block at
`NONCE_PTR`; an empty message succeeds with nothing changed but the status, whatever its regions. -/
def Obligations.CtrEncRawCompletes : Prop :=
  ∀ (l mac : Nat) (s : State), s.initialized = true →
    (s.lenM.toNat = 0 → exec (.ctrEncRaw l mac) s = .next (s.setStatus .success)) ∧
    (0 < s.lenM.toNat → s.lenM.toNat ≤ 255 →
      OperandsOk s [keyRegion s, nonceRegion s 16] (messageRegion s s.lenM.toNat) →
      let c := ctr (readRegion s (keyRegion s)) (readRegion s (nonceRegion s 16)) (rawCtrWidth s.platform)
        (readRegion s (messageRegion s s.lenM.toNat))
      let t := (storeMessage s c).setStatus .success
      exec (.ctrEncRaw l mac) s = .next t ∧ c.length = s.lenM.toNat ∧
        (Memory.wf s.mem = true → readRegion t (messageRegion s s.lenM.toNat) = c))

/-- spec/41_block_modes.md section 2, corner case: with `LEN_M` = 16 the two commands do the same, faults included.
That they fault with the same reason even where one region wraps and another is not admitted, which R62 and U15 leave
unspecified, is the model's choice: its free choice of the reason does not depend on the command (log entry 8). -/
def Obligations.CbcOfOneBlockIsEcb : Prop :=
  ∀ (l mac l' mac' : Nat) (s : State), s.lenM.toNat = 16 → exec (.cbcEncRaw l mac) s = exec (.ecbEnc l' mac') s

/-- R161: block i of the CBC chain is `AES128(K, Y_(i−1) xor X_i)` from a zero IV, and
`CBCMAC` is the last block. -/
def Obligations.CbcChainFollowsItsRecurrence : Prop :=
  ∀ (K X : Octets) (n : Nat), K.length = 16 → X.length = 16 * n →
    (cbcChain K X).length = 16 * n ∧
    (∀ i, i < n → ((cbcChain K X).drop (16 * i)).take 16 =
      aes128 K (xorOctets (if i = 0 then zeros 16 else ((cbcChain K X).drop (16 * (i - 1))).take 16)
        ((X.drop (16 * i)).take 16))) ∧
    (0 < n → cbcMac K X = (cbcChain K X).drop (16 * (n - 1)))

/-- The increment of spec/41_block_modes.md section 1 (its first sentences; that CCM* never reaches the wrap is
`CcmCounterNeverWraps`): `inc_W` adds 1 to the low-order W octets, read big-endian, modulo 2^(8W), and leaves the
others. -/
def Obligations.CounterIncrementIsModular : Prop :=
  ∀ (W : Nat) (A : Octets), 1 ≤ W → W ≤ 16 → A.length = 16 →
    (incCounter W A).length = 16 ∧
    (incCounter W A).take (16 - W) = A.take (16 - W) ∧
    intOfBigEndian ((incCounter W A).drop (16 - W)) = (intOfBigEndian (A.drop (16 - W)) + 1) % 2 ^ (8 * W)

/-- R162: CTR has the length of D, and octet i of it is `D[i] ⊕ S_(i div 16)[i mod 16]`, with
S_j = `AES128(K, A_j)`, A_0 = A and A_(j+1) = inc_W(A_j); of a partial last segment's block the leading octets are
used. -/
def Obligations.CtrOctetFormula : Prop :=
  ∀ (K A D : Octets) (W : Nat), K.length = 16 → A.length = 16 → 1 ≤ W → W ≤ 16 →
    (ctr K A W D).length = D.length ∧
    ∀ i, i < D.length → (ctr K A W D).getD i 0 =
      D.getD i 0 ^^^ (aes128 K (Nat.repeat (incCounter W) (i / 16) A)).getD (i % 16) 0

/-- R163, which the spec marks as derived from its R162: CTR is its own inverse, preserves length, and octet i of its
result depends only on D[i], K, A, W and i. -/
def Obligations.CtrIsItsOwnInverse : Prop :=
  ∀ (K A D : Octets) (W : Nat), K.length = 16 →
    ctr K A W (ctr K A W D) = D ∧ (ctr K A W D).length = D.length ∧
    ∀ (D' : Octets) (i : Nat), i < D.length → i < D'.length → D.getD i 0 = D'.getD i 0 →
      (ctr K A W D).getD i 0 = (ctr K A W D').getD i 0

/-- spec/41_block_modes.md section 3: where no increment carries out of the last octet of the IV, raw CTR gives the
same result for every `RAW_CTR_WIDTH`. -/
def Obligations.RawCtrWidthIrrelevantWithoutCarry : Prop :=
  ∀ (K IV D : Octets) (W W' : Nat), K.length = 16 → IV.length = 16 → 1 ≤ W → W ≤ 16 → 1 ≤ W' → W' ≤ 16 →
    intOfBigEndian (IV.drop 15) + keystreamBlocks D.length - 1 ≤ 255 → fCtrRaw W K IV D = fCtrRaw W' K IV D

/-- spec/41_block_modes.md section 3, corner case: `CTR_ENC_RAW` applied twice with the same key and IV restores every
octet of memory. -/
def Obligations.CtrEncRawTwiceRestoresMemory : Prop :=
  ∀ (l mac : Nat) (s t : State), Memory.wf s.mem = true → exec (.ctrEncRaw l mac) s = .next t →
    t.status = .success →
    ∃ u, exec (.ctrEncRaw l mac) t = .next u ∧ u.status = .success ∧
      ∀ a, readOctet u.mem a = readOctet s.mem a

/-! ### The block cipher (spec/40_block_cipher.md) -/

/-- R122: the S-box table agrees with the definition on all 256 octets: t is the inverse of b in GF(2^8) (0 for 0),
and bit i of S(b) is t[i] ⊕ t[(i+4) mod 8] ⊕ t[(i+5) mod 8] ⊕ t[(i+6) mod 8] ⊕ t[(i+7) mod 8] ⊕ c[i]
with c = 0x63. -/
def Obligations.SboxTableMatchesDefinition : Prop :=
  ∀ b : Octet, ∃ t : Octet, (b ≠ 0 → gfMul b t = 1) ∧ (b = 0 → t = 0) ∧
    ∀ i, i < 8 → (sbox b).getLsbD i =
      (t.getLsbD i ^^ t.getLsbD ((i + 4) % 8) ^^ t.getLsbD ((i + 5) % 8) ^^ t.getLsbD ((i + 6) % 8) ^^
        t.getLsbD ((i + 7) % 8) ^^ (0x63 : Octet).getLsbD i)

/-- R129: the key expansion has 44 words of 4 octets that follow its recurrence, each round key is four of them,
round key 0 is the key, and the FIPS-197 key gives the two words the rule names. -/
def Obligations.KeyExpansionFollowsItsRecurrence : Prop :=
  (∀ b0 b1 b2 b3 : Octet, rotWord [b0, b1, b2, b3] = [b1, b2, b3, b0] ∧
    subWord [b0, b1, b2, b3] = [sbox b0, sbox b1, sbox b2, sbox b3]) ∧
  ((keyExpansion (bigEndian 16 0x2b7e151628aed2a6abf7158809cf4f3c)).getD 4 [] = bigEndian 4 0xa0fafe17 ∧
    (keyExpansion (bigEndian 16 0x2b7e151628aed2a6abf7158809cf4f3c)).getD 43 [] = bigEndian 4 0xb6630ca6) ∧
  ∀ K : Octets, K.length = 16 →
    (keyExpansion K).length = 44 ∧ (∀ w ∈ keyExpansion K, w.length = 4) ∧
    (∀ i, i < 4 → (keyExpansion K).getD i [] = (K.drop (4 * i)).take 4) ∧
    (∀ i, 4 ≤ i → i < 44 → (keyExpansion K).getD i [] =
      xorOctets ((keyExpansion K).getD (i - 4) [])
        (if i % 4 = 0 then
          xorOctets (subWord (rotWord ((keyExpansion K).getD (i - 1) []))) [rcon (i / 4), 0, 0, 0]
        else (keyExpansion K).getD (i - 1) [])) ∧
    (∀ j, j ≤ 10 → roundKey (keyExpansion K) j =
      (keyExpansion K).getD (4 * j) [] ++ (keyExpansion K).getD (4 * j + 1) [] ++
        (keyExpansion K).getD (4 * j + 2) [] ++ (keyExpansion K).getD (4 * j + 3) []) ∧
    roundKey (keyExpansion K) 0 = K

/-- Section 4: for a fixed key, `AES128` is a permutation of the 16-octet blocks. -/
def Obligations.CipherIsAPermutation : Prop :=
  ∀ K : Octets, K.length = 16 →
    (∀ P : Octets, P.length = 16 → (aes128 K P).length = 16) ∧
    ∀ C : Octets, C.length = 16 → ∃ P : Octets, (P.length = 16 ∧ aes128 K P = C) ∧
      ∀ Q : Octets, Q.length = 16 → aes128 K Q = C → Q = P

/-! ### CCM* (spec/42_ccm_star.md) -/

/-- R193: the flags octet of B_0 has bit 7 clear, `Adata` in bit 6, M' in bits 5:3 and L − 1 in bits 2:0. -/
def Obligations.HeaderFlagsLayout : Prop :=
  (∀ la L M : Nat, 2 ≤ L → L ≤ 8 → (M = 0 ∨ M = 4 ∨ M = 8 ∨ M = 16) →
    (flagsB0 la L M).getLsbD 7 = false ∧
    ((flagsB0 la L M).extractLsb' 6 1).toNat = (if 0 < la then 1 else 0) ∧
    ((flagsB0 la L M).extractLsb' 3 3).toNat = (if 0 < M then (M - 2) / 2 else 0) ∧
    ((flagsB0 la L M).extractLsb' 0 3).toNat = L - 1) ∧
  flagsB0 0 2 8 = 0x19 ∧ ∀ la : Nat, 0 < la → flagsB0 la 2 8 = 0x59 ∧ flagsB0 la 2 4 = 0x49 ∧ flagsB0 la 2 16 = 0x79

/-- R196: the authentication input is B_0, then the associated-data blocks, then the padded message; its length is a
non-zero multiple of 16, and an empty message adds no block. -/
def Obligations.AuthInputIsWholeBlocks : Prop :=
  ∀ (N a m : Octets) (L M : Nat), 2 ≤ L → L ≤ 8 → N.length = 15 - L →
    authInput N L M a m = headerBlock N L M a.length m.length ++ associatedBlocks a ++ pad16 m ∧
    (headerBlock N L M a.length m.length).length = 16 ∧
    (authInput N L M a m).length % 16 = 0 ∧ 0 < (authInput N L M a m).length ∧
    authInput N L M a [] = headerBlock N L M a.length 0 ++ associatedBlocks a

/-- Section 3: counting from A_1, the CCM* counter blocks of a message are A_1, A_2, … with the flags and the nonce
unchanged; up to 16 of them the counter field of L octets never wraps. -/
def Obligations.CcmCounterNeverWraps : Prop :=
  ∀ (N : Octets) (L q : Nat), 2 ≤ L → L ≤ 8 → N.length = 15 - L → q ≤ 16 →
    counterBlocks L (counterBlock N L 1) q = (List.range q).map fun j => counterBlock N L (j + 1)

/-- R214, which the spec marks as derived from its R163, R200 and R210: decrypting what encryption returned gives the
message and the tag back, with `Success`. -/
def Obligations.CcmRoundTrip : Prop :=
  ∀ (K N a m cu : Octets) (L M n : Nat),
    (2 ≤ L ∧ L ≤ 8) → (M = 0 ∨ M = 4 ∨ M = 8 ∨ M = 16) → a.length ≤ 255 → m.length + M ≤ 255 →
    N.length = 15 - L → fCcmsEnc K N L M a m = .ok cu n →
    fCcmsDec K N L M a cu = .ok (m ++ cu.drop (cu.length - M)) m.length

/-- R216, which the spec marks as derived from its R210: with M = 0 decryption never answers `AuthenticationFailed`,
whatever the input. -/
def Obligations.NoTagNeverFailsAuthentication : Prop :=
  ∀ (K N a cu : Octets) (L : Nat), fCcmsDec K N L 0 a cu ≠ .err .authenticationFailed

/-- Section 3: with M = 0 encryption gives the CTR encryption of the message alone, whatever the associated data, and
an empty message gives the empty string. -/
def Obligations.NoTagEncryptsOnly : Prop :=
  ∀ (K N a m : Octets) (L : Nat), K.length = 16 → 2 ≤ L → L ≤ 8 → N.length = 15 - L → a.length ≤ 255 →
    m.length ≤ 255 →
    fCcmsEnc K N L 0 a m = .ok (ctr K (counterBlock N L 1) L m) m.length ∧
    fCcmsEnc K N L 0 a [] = .ok [] 0

/-- The rule of `CCMS_ENC`: on accepted arguments and operands in order it writes the ciphertext followed by the
masked tag (the ciphertext alone when M = 0), adds M to `LEN_M`, and reports `Success`. -/
def Obligations.CcmsEncCompletes : Prop :=
  ∀ (L M : Nat) (s : State), s.initialized = true → 2 ≤ L → L ≤ 8 → (M = 0 ∨ M = 4 ∨ M = 8 ∨ M = 16) →
    s.lenA.toNat ≤ 255 → s.lenM.toNat + M ≤ 255 →
    OperandsOk s [keyRegion s, nonceRegion s (15 - L), dataRegion s] (messageRegion s (s.lenM.toNat + M)) →
    let K := readRegion s (keyRegion s)
    let N := readRegion s (nonceRegion s (15 - L))
    let a := readRegion s (dataRegion s)
    let m := readRegion s (messageRegion s s.lenM.toNat)
    let T := (cbcMac K (authInput N L M a m)).take M
    let out := ctr K (counterBlock N L 1) L m ++ xorOctets T ((aes128 K (counterBlock N L 0)).take M)
    let t := ((storeMessage s out).setLenM (s.lenM.toNat + M)).setStatus .success
    exec (.ccmsEnc L M) s = .next t ∧ out.length = s.lenM.toNat + M ∧
      (Memory.wf s.mem = true → readRegion t (messageRegion s (s.lenM.toNat + M)) = out)

/-- The rule of `CCMS_DEC`: on accepted arguments and operands in order, when M = 0 or the received tag is the expected
one, it writes the plaintext followed by the received tag, takes M from `LEN_M`, and reports `Success`. -/
def Obligations.CcmsDecCompletes : Prop :=
  ∀ (L M : Nat) (s : State), s.initialized = true → 2 ≤ L → L ≤ 8 → (M = 0 ∨ M = 4 ∨ M = 8 ∨ M = 16) →
    s.lenA.toNat ≤ 255 → s.lenM.toNat ≤ 255 → M ≤ s.lenM.toNat →
    OperandsOk s [keyRegion s, nonceRegion s (15 - L), dataRegion s] (messageRegion s s.lenM.toNat) →
    let K := readRegion s (keyRegion s)
    let N := readRegion s (nonceRegion s (15 - L))
    let a := readRegion s (dataRegion s)
    let cu := readRegion s (messageRegion s s.lenM.toNat)
    let p := ctr K (counterBlock N L 1) L (cu.take (s.lenM.toNat - M))
    let U := cu.drop (s.lenM.toNat - M)
    let expected := xorOctets ((cbcMac K (authInput N L M a p)).take M) ((aes128 K (counterBlock N L 0)).take M)
    let t := ((storeMessage s (p ++ U)).setLenM (s.lenM.toNat - M)).setStatus .success
    (M = 0 ∨ expected = U) →
    exec (.ccmsDec L M) s = .next t ∧ (p ++ U).length = s.lenM.toNat ∧
      (Memory.wf s.mem = true → readRegion t (messageRegion s s.lenM.toNat) = p ++ U)

/-- The rule of `CCMS_DEC`, failure: when M > 0 and the received tag is not the expected one, it reports
`AuthenticationFailed`; `LEN_M`, every other register and every octet outside the message region stay. Nothing is said
of the octets inside it, nor of the model's count of draws (log entries 6 and 7). -/
def Obligations.CcmsDecRejectsWrongTag : Prop :=
  ∀ (L M : Nat) (s : State), s.initialized = true → 2 ≤ L → L ≤ 8 → (M = 4 ∨ M = 8 ∨ M = 16) →
    s.lenA.toNat ≤ 255 → s.lenM.toNat ≤ 255 → M ≤ s.lenM.toNat →
    OperandsOk s [keyRegion s, nonceRegion s (15 - L), dataRegion s] (messageRegion s s.lenM.toNat) →
    let K := readRegion s (keyRegion s)
    let N := readRegion s (nonceRegion s (15 - L))
    let a := readRegion s (dataRegion s)
    let cu := readRegion s (messageRegion s s.lenM.toNat)
    let p := ctr K (counterBlock N L 1) L (cu.take (s.lenM.toNat - M))
    let expected := xorOctets ((cbcMac K (authInput N L M a p)).take M) ((aes128 K (counterBlock N L 0)).take M)
    expected ≠ cu.drop (s.lenM.toNat - M) →
    ∃ t, exec (.ccmsDec L M) s = .next t ∧ t.status = .authenticationFailed ∧ t.initialized = true ∧
      t.lenM = s.lenM ∧ KeepsHostSide s t ∧ KeepsMemoryOutside (messageRegion s s.lenM.toNat) s t

/-- spec/70_reset_and_hazards.md section 3: `CCMS_DEC` right after a successful `CCMS_ENC`, with the `LEN_M` it left,
restores the message and its length. -/
def Obligations.CcmCommandRoundTrip : Prop :=
  ∀ (L M : Nat) (s t : State), Memory.wf s.mem = true → exec (.ccmsEnc L M) s = .next t → t.status = .success →
    ∃ u, exec (.ccmsDec L M) t = .next u ∧ u.status = .success ∧ u.lenM = s.lenM ∧
      readRegion u (messageRegion s s.lenM.toNat) = readRegion s (messageRegion s s.lenM.toNat)

/-! ### Operand regions (spec/20_memory.md section 1) -/

/-- A command whose parameters and lengths pass but with a region that wraps or is not admitted faults: with
`RegionWraps` when none is unadmitted, with `RegionNotAdmitted` when none wraps, with one of the two otherwise (where
one region has both defects, that either reason may be recorded is the model's reading, log entry 8). An empty
`CTR_ENC_RAW` checks no region. -/
def Obligations.InvalidRegionsFault : Prop :=
  ∀ (i : Instr) (s : State), s.initialized = true → opcode i ≠ 1 → argumentsOk i s = true →
    ¬ (opcode i = 5 ∧ s.lenM.toNat = 0) →
    let rs := readOnlyRegions i s ++ [writtenRegion i s]
    let wraps := ∃ r ∈ rs, 0 < r.len ∧ 2 ^ 32 < r.start + r.len
    let unadmitted := ∃ r ∈ rs, ∃ a, RegionHolds r a ∧ a < 2 ^ 32 ∧ memAdmit s.platform a = false
    (wraps → ¬ unadmitted → exec i s = .fault .regionWraps) ∧
    (unadmitted → ¬ wraps → exec i s = .fault .regionNotAdmitted) ∧
    (wraps → unadmitted → exec i s = .fault .regionWraps ∨ exec i s = .fault .regionNotAdmitted)

/-- A command whose regions are valid but whose message region shares an address with one it only reads faults with
`OperandOverlap`. -/
def Obligations.OverlappingOperandsFault : Prop :=
  ∀ (i : Instr) (s : State) (r : Region) (a : Nat), s.initialized = true → opcode i ≠ 1 →
    argumentsOk i s = true → ¬ (opcode i = 5 ∧ s.lenM.toNat = 0) →
    (∀ t ∈ readOnlyRegions i s, RegionValid s.platform t) → RegionValid s.platform (writtenRegion i s) →
    r ∈ readOnlyRegions i s → RegionHolds r a → RegionHolds (writtenRegion i s) a →
    exec i s = .fault .operandOverlap

/-- With `LEN_A` = 0 a CCM* command that completes does not depend on `A_PTR`: with any other value there it completes
in the same way. (After `AuthenticationFailed` the buffer is free, so nothing is said of that case.) -/
def Obligations.EmptyAssociatedDataIgnoresPointer : Prop :=
  ∀ (L M : Nat) (p : Word) (s t : State), s.lenA = 0 → t.status ≠ .authenticationFailed →
    (exec (.ccmsEnc L M) s = .next t → exec (.ccmsEnc L M) (s.writeReg .aPtr p) = .next (t.writeReg .aPtr p)) ∧
    (exec (.ccmsDec L M) s = .next t → exec (.ccmsDec L M) (s.writeReg .aPtr p) = .next (t.writeReg .aPtr p))

/-! ### What commands and steps leave alone -/

/-- A completing command of any kind leaves the pointer registers, `LEN_A`, the configuration, the recorded fault and
the host's own lists as they were; `INITIALIZED` is left by every command but `INIT`, and the model's count of draws
by every command that does not fail authentication. -/
def Obligations.CommandFrame : Prop :=
  ∀ (i : Instr) (s t : State), exec i s = .next t →
    KeepsHostSide s t ∧ (opcode i ≠ 1 → t.initialized = s.initialized) ∧
    (t.status ≠ .authenticationFailed → t.draws = s.draws)

/-- R69: a completing command leaves every octet of memory outside its message region as it was (`CCMS_ENC` the
`LEN_M` + M octets at `M_PTR`, `ECB_ENC` 16, the others `LEN_M`; `INIT` writes none), and one that ends with
`InvalidParameter` or `InvalidLength`, a reserved word among them, writes no octet at all. -/
def Obligations.CommandMemoryFrame : Prop :=
  (∀ (i : Instr) (s t : State), exec i s = .next t →
    KeepsMemoryOutside (writtenRegion i s) s t ∧
    (t.status = .invalidParameter ∨ t.status = .invalidLength → t.mem = s.mem)) ∧
  ∀ (s t : State) (w : Word) (why : ReservedReason) (rest : List HostOp), decode w = .reserved why →
    s.pending = hostWr .cmd w :: rest → step s = .next t → t.mem = s.mem

/-- `LEN_M` is written by a successful `CCMS_ENC`, which adds M, and by a successful `CCMS_DEC`, which takes M, and by
no other command. -/
def Obligations.LenMWrittenOnlyByCcmSuccess : Prop :=
  ∀ (i : Instr) (s t : State), exec i s = .next t →
    match i with
    | .ccmsEnc _ mac => t.lenM.toNat = if t.status = .success then s.lenM.toNat + mac else s.lenM.toNat
    | .ccmsDec _ mac => t.lenM.toNat = (if t.status = .success then s.lenM.toNat - mac else s.lenM.toNat) ∧
        (t.status = .success → mac ≤ s.lenM.toNat)
    | .init _ _ => t.lenM = s.lenM
    | .cbcEncRaw _ _ => t.lenM = s.lenM
    | .ctrEncRaw _ _ => t.lenM = s.lenM
    | .ecbEnc _ _ => t.lenM = s.lenM

/-- spec/10_state.md section 4: a command's outcome depends on nothing but the registers, the configuration and the
octets of its operands: two states that agree on these end with the same status and `LEN_M`, and on success with the
same octets in the written region. -/
def Obligations.OperandsDetermineResult : Prop :=
  ∀ (i : Instr) (s s' t : State), Memory.wf s.mem = true → Memory.wf s'.mem = true →
    s'.initialized = s.initialized → s'.keyPtr = s.keyPtr → s'.noncePtr = s.noncePtr → s'.aPtr = s.aPtr →
    s'.lenA = s.lenA → s'.mPtr = s.mPtr → s'.lenM = s.lenM → s'.platform = s.platform →
    (∀ r ∈ readOnlyRegions i s, SameOctets r s s') → SameOctets (messageRegion s s.lenM.toNat) s s' →
    exec i s = .next t →
    ∃ t', exec i s' = .next t' ∧ t'.status = t.status ∧ t'.lenM = t.lenM ∧ t'.initialized = t.initialized ∧
      (t.status = .success → SameOctets (writtenRegion i s) t t')

/-- Every step keeps the invariant: memory stays in its canonical form, an initialised engine has completed a command,
and no fault is recorded. The canonical form is the model's own choice (log entry 2), and that a fault leaves no next
state is log entry 9. -/
def Obligations.StepKeepsInvariant : Prop :=
  ∀ s t : State, machineInvariant s → step s = .next t → machineInvariant t

/-- The state after reset meets the invariant. That its memory lists nothing is the model's choice (log entry 2). -/
def Obligations.ResetMeetsInvariant : Prop := machineInvariant State.reset

/-- spec/10_state.md section 4: nothing clears `INITIALIZED` except reset. That a reset is an
event of the host's list is the model's (log entry 10). -/
def Obligations.OnlyResetClearsInitialized : Prop :=
  ∀ s t : State, step s = .next t → s.initialized = true →
    (∀ op rest, s.pending = op :: rest → op.isReset = false) → t.initialized = true

/-- No command and no step is refused: every command of the table has its meaning. -/
def Obligations.NothingIsRefused : Prop :=
  (∀ (i : Instr) (s : State) (r : Refusal), exec i s ≠ .refused r) ∧
  (∀ (s : State) (r : Refusal), step s ≠ .refused r)

/-! ### Host accesses and reset (spec/10_state.md, spec/20_memory.md section 2, spec/70_reset_and_hazards.md) -/

/-- A host write of an operand register, of any value, changes that register alone, and the read after it returns the
value. The list of accesses and the record of what was read are the model's (log entries 4 and 5). -/
def Obligations.OperandRegisterReadsBack : Prop :=
  ∀ (s : State) (rest : List HostOp) (r : Reg) (v : Word), s.faulted = none →
    s.pending = hostWr r v :: hostRd r :: rest → r ≠ .cmd → r ≠ .status →
    step s = .next ((s.setPending (hostRd r :: rest)).writeReg r v) ∧
    (∀ r', r' ≠ r → readReg (s.writeReg r v) r' = readReg s r') ∧
    step ((s.setPending (hostRd r :: rest)).writeReg r v) =
      .next (((s.setPending rest).writeReg r v).observe v)

/-- A read of `CMD` returns 0 and issues no command; a write to `STATUS` is ignored. The list of accesses and the
record of what was read are the model's (log entries 4 and 5). -/
def Obligations.CmdReadsZeroAndStatusIsReadOnly : Prop :=
  ∀ (s : State) (rest : List HostOp) (v : Word), s.faulted = none →
    (s.pending = hostRd .cmd :: rest → step s = .next ((s.setPending rest).observe 0)) ∧
    (s.pending = hostWr .status v :: rest → step s = .next (s.setPending rest))

/-- `STATUS` has `CODE` in bits 2:0, `INIT_DONE`, the copy of `INITIALIZED`, in bit 8, and zeros elsewhere. -/
def Obligations.StatusRegisterLayout : Prop :=
  ∀ s : State,
    (readReg s .status).extractLsb' 0 3 =
      (match s.status with
       | .none => 0
       | .success => 1
       | .invalidParameter => 2
       | .invalidLength => 3
       | .authenticationFailed => 4) ∧
    (readReg s .status).extractLsb' 3 5 = 0 ∧ (readReg s .status).getLsbD 8 = s.initialized ∧
    (readReg s .status).extractLsb' 9 23 = 0

/-- A register access that is not 32-bit, whose offset (equally, whose address) is not a multiple of 4, or whose offset
is 0x20 or more, faults, and so does an octet access inside the block's decoded range; every other register access
reaches the register at its offset. That an access is given by its offset, and one at 0x20 or more faults whatever the
decoded range, is the model's (log entry 11). -/
def Obligations.BadRegisterAccessFaults : Prop :=
  ∀ (s : State) (size : AccessSize) (off : Addr) (v : Word),
    ((engineBase s.platform + off).toNat % 4 = off.toNat % 4) ∧
    (if size ≠ .word ∨ off.toNat % 4 ≠ 0 ∨ 0x20 ≤ off.toNat then
      hostAccess (.regWrite size off v) s = .fault .badRegisterAccess ∧
      hostAccess (.regRead size off) s = .fault .badRegisterAccess
    else ∃ r : Reg, r.offset = off ∧ hostAccess (.regWrite size off v) s = hostRegWrite r v s ∧
      hostAccess (.regRead size off) s = .next (s.observe (readReg s r))) ∧
    (∀ (a : Addr) (b : Octet), (engineBase s.platform).toNat ≤ a.toNat →
      a.toNat < (engineBase s.platform).toNat + 32 →
      hostAccess (.octetWrite a b) s = .fault .badRegisterAccess ∧
      hostAccess (.octetRead a) s = .fault .badRegisterAccess)

/-- spec/20_memory.md section 6: a host write of an octet of memory is seen by the host's next read of it, and no
other octet and no register of the engine changes. That such an access reaches memory whatever `MemAdmit` says, and the
list and the record, are the model's (log entries 12, 4 and 5). -/
def Obligations.HostOctetReadsBack : Prop :=
  ∀ (s : State) (rest : List HostOp) (a : Addr) (b : Octet), Memory.wf s.mem = true → s.faulted = none →
    s.pending = .octetWrite a b :: .octetRead a :: rest → inRegisterBlock s.platform a.toNat = false →
    ∃ t u, step s = .next t ∧ step t = .next u ∧ u.observed = b.setWidth 32 :: s.observed ∧ u.pending = rest ∧
      (∀ x, x ≠ a.toNat → readOctet u.mem x = readOctet s.mem x) ∧ ∀ r, readReg u r = readReg s r

/-- spec/10_state.md section 4: no step follows a recorded fault, and the record is never cleared (that `step` answers
the recorded fault there, and `advance` records it, is log entry 9). The idle clause is the model's, DEDUCED from the
sentences of R277 (spec/60_exceptions.md section 8) and R291 (spec/70_reset_and_hazards.md section 1) that the engine
is idle between commands and waits, idle, after reset: with no access pending a step answers the same state (log
entry 17). -/
def Obligations.FaultIsFinalAndIdleChangesNothing : Prop :=
  (∀ (s : State) (f : Fault), s.faulted = some f → step s = .fault f ∧ (advance s).faulted = some f) ∧
  (∀ s : State, s.faulted = none → s.pending = [] → step s = .next s)

/-- The values the spec gives for reset, in the state after reset and after a reset event, which leaves bus memory as
it was. Nothing is said of the six drawn registers (log entry 1); that a reset is an event of the host's list and
leaves the rest of the list is the model's (log entries 4 and 10). -/
def Obligations.ResetValues : Prop :=
  (State.reset.initialized = false ∧ State.reset.status = .none ∧ State.reset.faulted = none ∧
    readReg State.reset .status = 0 ∧ readReg State.reset .cmd = 0) ∧
  ∀ (s : State) (rest : List HostOp), s.faulted = none → s.pending = .reset :: rest →
    ∃ t, step s = .next t ∧ t.initialized = false ∧ t.status = .none ∧ t.faulted = none ∧
      readReg t .status = 0 ∧ readReg t .cmd = 0 ∧ t.mem = s.mem ∧ t.platform = s.platform ∧ t.pending = rest
end

