-- ==== Sys2Proof/Laws/Octets.lean ====
section
/-! SUPPORT. Lengths and basic equations of the octet-string operations. -/

namespace Sys2Proof.Machine

@[simp] theorem zeros_length (n : Nat) : (zeros n).length = n := by simp [zeros]

@[simp] theorem zeros_zero : zeros 0 = [] := rfl

@[simp] theorem xorOctets_length (a b : Octets) : (xorOctets a b).length = min a.length b.length := by
  simp [xorOctets]

@[simp] theorem trunc_length (b : Octets) (n : Nat) : (trunc b n).length = min n b.length := by simp [trunc]

/-- Exclusive OR with the same string twice gives the string back. -/
theorem xorOctets_cancel : ∀ (a k : Octets), a.length ≤ k.length → xorOctets (xorOctets a k) k = a
  | [], _, _ => by simp [xorOctets]
  | x :: a, [], h => by simp at h
  | x :: a, k :: ks, h => by
    have ih := xorOctets_cancel a ks (by simpa using h)
    simp only [xorOctets, List.zipWith_cons_cons] at ih ⊢
    rw [ih, BitVec.xor_assoc, BitVec.xor_self, BitVec.xor_zero]

@[simp] theorem bigEndian_length (n v : Nat) : (bigEndian n v).length = n := by
  induction n with
  | zero => rfl
  | succ n ih => simp [bigEndian, ih]

@[simp] theorem pad16_nil : pad16 [] = [] := rfl

/-- Padding reaches the next multiple of 16. -/
theorem pad16_length (b : Octets) : (pad16 b).length = (b.length + 15) / 16 * 16 := by
  simp only [pad16, List.length_append, zeros_length]
  omega

@[simp] theorem blocks_length (b : Octets) : (blocks b).length = b.length / 16 := by simp [blocks]

/-- Every block has 16 octets. -/
theorem length_of_mem_blocks {b x : Octets} (h : x ∈ blocks b) : x.length = 16 := by
  simp only [blocks, List.mem_map, List.mem_range] at h
  obtain ⟨i, hi, rfl⟩ := h
  simp only [List.length_take, List.length_drop]
  omega

end Sys2Proof.Machine
end

