-- ==== Sys2Proof/Laws/Cipher.lean ====
section
/-! SUPPORT. The sizes of everything the cipher and the block modes build. -/

namespace Sys2Proof.Machine

@[simp] theorem subBytes_length (s : Octets) : (subBytes s).length = s.length := by simp [subBytes]

@[simp] theorem shiftRows_length (s : Octets) : (shiftRows s).length = 16 := by simp [shiftRows, shiftRowsIndices]

@[simp] theorem mixColumns_length (s : Octets) : (mixColumns s).length = 16 := by simp [mixColumns, mixColumn]

@[simp] theorem addRoundKey_length (s rk : Octets) : (addRoundKey s rk).length = min s.length rk.length := by
  simp [addRoundKey]

/-- Extending a list of words that has 4 of them or more, all of 4 octets, by `nextKeyWord` keeps that so. -/
theorem foldl_nextKeyWord_words : ∀ (is : List Nat) (ws : List Octets), 4 ≤ ws.length →
    (∀ w ∈ ws, w.length = 4) → (∀ j, (h : j < is.length) → is[j] = ws.length + j) →
    (∀ w ∈ is.foldl (fun ws i => ws ++ [nextKeyWord ws i]) ws, w.length = 4) ∧
      (is.foldl (fun ws i => ws ++ [nextKeyWord ws i]) ws).length = ws.length + is.length
  | [], ws, _, hw, _ => ⟨hw, rfl⟩
  | i :: is, ws, h4, hw, his => by
    have hi : i = ws.length := by have := his 0 (by simp); simpa only [List.getElem_cons_zero, Nat.add_zero] using this
    have hget : ∀ k, k < ws.length → (ws.getD k []).length = 4 := by
      intro k hk
      rw [List.getD_eq_getElem?_getD, List.getElem?_eq_getElem hk, Option.getD_some]
      exact hw _ (List.getElem_mem hk)
    have h1 := hget (i - 1) (by omega)
    have hnew : (nextKeyWord ws i).length = 4 := by
      simp only [nextKeyWord]
      rw [xorOctets_length, hget (i - 4) (by omega)]
      split_ifs
      · simp only [xorOctets_length, subWord, rotWord, List.length_map, List.length_append, List.length_drop,
          List.length_take, h1, List.length_cons, List.length_nil]
        omega
      · rw [h1]; rfl
    have ih := foldl_nextKeyWord_words is (ws ++ [nextKeyWord ws i]) (by simp; omega)
      (by
        intro w hmem
        rcases List.mem_append.mp hmem with h | h
        · exact hw w h
        · rw [List.mem_singleton] at h; rw [h]; exact hnew)
      (by
        intro j hj
        have := his (j + 1) (by simpa using hj)
        simp only [List.getElem_cons_succ] at this
        simp only [List.length_append, List.length_cons, List.length_nil]
        omega)
    simp only [List.foldl_cons, List.length_cons]
    refine ⟨ih.1, ?_⟩
    rw [ih.2]
    simp only [List.length_append, List.length_cons, List.length_nil]
    omega

/-- The key expansion of a 16-octet key has 44 words of 4 octets (R129). -/
theorem keyExpansion_words (K : Octets) (hK : K.length = 16) :
    (∀ w ∈ keyExpansion K, w.length = 4) ∧ (keyExpansion K).length = 44 := by
  have h := foldl_nextKeyWord_words (List.range' 4 40) ((List.range 4).map fun i => (K.drop (4 * i)).take 4)
    (by simp)
    (by
      intro w hw
      simp only [List.mem_map, List.mem_range] at hw
      obtain ⟨i, hi, rfl⟩ := hw
      simp only [List.length_take, List.length_drop, hK]
      omega)
    (by intro j hj; simp)
  refine ⟨h.1, ?_⟩
  have := h.2
  simpa [keyExpansion] using this

/-- Each of the 11 round keys of a 16-octet key has 16 octets (R129). -/
theorem roundKey_length (K : Octets) (hK : K.length = 16) (j : Nat) (hj : j ≤ 10) :
    (roundKey (keyExpansion K) j).length = 16 := by
  obtain ⟨hw, hl⟩ := keyExpansion_words K hK
  have hsub : ∀ w ∈ ((keyExpansion K).drop (4 * j)).take 4, w.length = 4 := fun w h =>
    hw w (List.mem_of_mem_drop (List.mem_of_mem_take h))
  have hlen : (((keyExpansion K).drop (4 * j)).take 4).length = 4 := by
    simp only [List.length_take, List.length_drop, hl]; omega
  have hsum : ∀ l : List Octets, (∀ w ∈ l, w.length = 4) → l.flatten.length = 4 * l.length := by
    intro l
    induction l with
    | nil => simp
    | cons a l ih =>
      intro h
      simp only [List.flatten_cons, List.length_append, List.length_cons]
      rw [h a (by simp), ih fun w hw => h w (by simp [hw])]
      omega
  simp only [roundKey]
  rw [hsum _ hsub, hlen]

/-- The cipher's result has 16 octets for a 16-octet key, whatever the block (R130). -/
theorem aes128_length (K P : Octets) (hK : K.length = 16) : (aes128 K P).length = 16 := by
  simp only [aes128, aesLastRound, addRoundKey_length, shiftRows_length]
  rw [roundKey_length K hK 10 (le_refl _)]; rfl

/-- There is one chaining value for each block, and each has 16 octets (R161). -/
theorem cbcBlocks_lengths (K : Octets) (hK : K.length = 16) (Xs : List Octets) (Y : Octets) :
    (cbcBlocks K Y Xs).length = Xs.length ∧ ∀ z ∈ cbcBlocks K Y Xs, z.length = 16 := by
  induction Xs generalizing Y with
  | nil => simp [cbcBlocks]
  | cons X Xs ih =>
    obtain ⟨h1, h2⟩ := ih (aes128 K (xorOctets Y X))
    refine ⟨by simp [cbcBlocks, h1], ?_⟩
    intro z hz
    simp only [cbcBlocks, List.mem_cons] at hz
    rcases hz with hz | hz
    · rw [hz]; exact aes128_length K _ hK
    · exact h2 z hz

/-- A list of 16-octet strings joined together. -/
theorem flatten_length_of_blocks : ∀ (l : List Octets), (∀ w ∈ l, w.length = 16) → l.flatten.length = 16 * l.length
  | [], _ => rfl
  | a :: l, h => by
    simp only [List.flatten_cons, List.length_append, List.length_cons]
    rw [h a (by simp), flatten_length_of_blocks l fun w hw => h w (by simp [hw])]
    omega

/-- `CBCCHAIN` has one block for each whole block of its input (R161). -/
theorem cbcChain_length (K X : Octets) (hK : K.length = 16) : (cbcChain K X).length = 16 * (X.length / 16) := by
  obtain ⟨h1, h2⟩ := cbcBlocks_lengths K hK (blocks X) (zeros 16)
  rw [cbcChain, flatten_length_of_blocks _ h2, h1, blocks_length]

/-- `CBCMAC` has 16 octets (R161). -/
theorem cbcMac_length (K X : Octets) (hK : K.length = 16) : (cbcMac K X).length = 16 := by
  obtain ⟨_, h2⟩ := cbcBlocks_lengths K hK (blocks X) (zeros 16)
  rw [cbcMac, List.getLastD_eq_getLast?]
  cases h : (cbcBlocks K (zeros 16) (blocks X)).getLast? with
  | none => simp
  | some z => exact h2 z (List.mem_of_getLast? h)

@[simp] theorem counterBlocks_length (W : Nat) : ∀ (q : Nat) (A : Octets), (counterBlocks W A q).length = q
  | 0, _ => rfl
  | q + 1, A => by simp [counterBlocks, counterBlocks_length W q]

/-- The keystream has q blocks of 16 octets (R162). -/
theorem keystream_length (K A : Octets) (W q : Nat) (hK : K.length = 16) : (keystream K A W q).length = 16 * q := by
  have h := flatten_length_of_blocks ((counterBlocks W A q).map (aes128 K))
    (by
      intro w hw
      simp only [List.mem_map] at hw
      obtain ⟨a, _, rfl⟩ := hw
      exact aes128_length K a hK)
  rw [keystream, List.flatMap_def]
  simpa using h

/-- CTR preserves the length (R163). -/
theorem ctr_length (K A : Octets) (W : Nat) (D : Octets) (hK : K.length = 16) : (ctr K A W D).length = D.length := by
  simp only [ctr, xorOctets_length, trunc_length, keystream_length K A W _ hK, keystreamBlocks]
  omega

end Sys2Proof.Machine
end

