-- ==== Sys2Proof/Laws/Ccm.lean ====
section
/-! SUPPORT. The sizes of what CCM* builds, and what each pure function answers once its checks are decided. -/

namespace Sys2Proof.Machine

/-- Every accepted tag length is at most a block (R9). -/
theorem macSet_le {M : Nat} (h : Config.macSet.contains M = true) : M ≤ 16 := by
  simp only [Config.macSet, List.contains_eq_mem, List.mem_cons, List.not_mem_nil, or_false, decide_eq_true_eq] at h
  omega

/-- Every accepted L is between 2 and 8 (R9). -/
theorem lSet_bounds {L : Nat} (h : Config.lSet.contains L = true) : 2 ≤ L ∧ L ≤ 8 := by
  simp only [Config.lSet, List.contains_eq_mem, List.mem_cons, List.not_mem_nil, or_false, decide_eq_true_eq] at h
  omega

/-- The raw tag has M octets (R197). -/
theorem rawTag_length (K N : Octets) (L M : Nat) (a m : Octets) (hK : K.length = 16) (hM : M ≤ 16) :
    (rawTag K N L M a m).length = M := by
  simp only [rawTag, trunc_length, cbcMac_length K _ hK]; omega

/-- The masked tag has M octets (R200). -/
theorem maskedTag_length (K N : Octets) (L M : Nat) (a m : Octets) (hK : K.length = 16) (hM : M ≤ 16) :
    (maskedTag K N L M a m).length = M := by
  simp only [maskedTag, xorOctets_length, rawTag_length K N L M a m hK hM, trunc_length, aes128_length K _ hK]
  omega

/-- CCM* encryption of the message preserves its length (R199). -/
theorem ccmCrypt_length (K N : Octets) (L : Nat) (m : Octets) (hK : K.length = 16) :
    (ccmCrypt K N L m).length = m.length := ctr_length K _ L m hK

/-- `F_ECB` on a key and a block of 16 octets (R132). -/
theorem fEcb_ok (K B : Octets) (hK : K.length = 16) (hB : B.length = 16) : fEcb K B = .ok (aes128 K B) 16 := by
  simp only [fEcb, hK, hB, ne_eq, not_true_eq_false, or_self, if_false]

/-- `F_CBC_RAW` on a 16-octet key and an accepted length (R165). -/
theorem fCbcRaw_ok (K B : Octets) (hK : K.length = 16) (hB : cbcLengthOk B.length = true) :
    fCbcRaw K B = .ok (cbcChain K B) B.length := by
  simp only [fCbcRaw, hK, hB, ne_eq, not_true_eq_false, if_false, Bool.not_true, Bool.false_eq_true]

/-- `F_CTR_RAW` on a 16-octet key, a 16-octet IV and an accepted length (R167). -/
theorem fCtrRaw_ok (W : Nat) (K IV D : Octets) (hK : K.length = 16) (hIV : IV.length = 16)
    (hD : ctrLengthOk D.length = true) : fCtrRaw W K IV D = .ok (ctr K IV W D) D.length := by
  simp only [fCtrRaw, hK, hIV, hD, ne_eq, not_true_eq_false, or_self, if_false, Bool.not_true, Bool.false_eq_true]

/-- The R191 checks pass for accepted L and M and a nonce of 15 − L octets. -/
theorem ccmInputsOk_of {N : Octets} {L M : Nat} (hp : ccmParametersOk L M = true) (hN : N.length = 15 - L) :
    ccmInputsOk N L M = true := by
  simp [ccmInputsOk, hp, hN]

/-- `F_CCMS_ENC` on inputs that pass every check: the ciphertext, then the masked tag unless M = 0 (R200, R203). -/
theorem fCcmsEnc_ok (K N : Octets) (L M : Nat) (a m : Octets) (hp : ccmParametersOk L M = true)
    (hN : N.length = 15 - L) (hK : K.length = 16) (hl : ccmEncLengthsOk a.length m.length M = true) :
    fCcmsEnc K N L M a m =
      if M = 0 then .ok (ccmCrypt K N L m) m.length
      else .ok (ccmCrypt K N L m ++ maskedTag K N L M a m) (m.length + M) := by
  simp only [fCcmsEnc, ccmInputsOk_of hp hN, hK, hl, ne_eq, not_true_eq_false, if_false, Bool.not_true,
    Bool.false_eq_true]

/-- What a successful `F_CCMS_ENC` returns has the reported length (R200). -/
theorem fCcmsEnc_ok_length (K N : Octets) (L M : Nat) (a m : Octets) (hp : ccmParametersOk L M = true)
    (hK : K.length = 16) (out : Octets) (n : Nat) (h : fCcmsEnc K N L M a m = .ok out n) :
    out.length = n ∧ n = m.length + M := by
  have hM : M ≤ 16 := macSet_le (by simp only [ccmParametersOk, Bool.and_eq_true] at hp; exact hp.2)
  simp only [fCcmsEnc] at h
  split_ifs at h with h1 h2 h3 h4
  · simp only [PureResult.ok.injEq] at h
    obtain ⟨rfl, rfl⟩ := h
    exact ⟨ccmCrypt_length K N L m hK, by omega⟩
  · simp only [PureResult.ok.injEq] at h
    obtain ⟨rfl, rfl⟩ := h
    refine ⟨?_, rfl⟩
    rw [List.length_append, ccmCrypt_length K N L m hK, maskedTag_length K N L M a m hK hM]

/-- `F_CCMS_DEC` on inputs that pass every check: the plaintext followed by the received tag when the tag is the
expected one or M = 0, else `AuthenticationFailed` (R210). -/
theorem fCcmsDec_checked (K N : Octets) (L M : Nat) (a cu : Octets) (hp : ccmParametersOk L M = true)
    (hN : N.length = 15 - L) (hK : K.length = 16) (hl : ccmDecLengthsOk a.length cu.length M = true) :
    fCcmsDec K N L M a cu =
      if M = 0 then .ok (ccmCrypt K N L (cu.take (cu.length - M))) (cu.length - M)
      else if maskedTag K N L M a (ccmCrypt K N L (cu.take (cu.length - M))) = cu.drop (cu.length - M) then
        .ok (ccmCrypt K N L (cu.take (cu.length - M)) ++ cu.drop (cu.length - M)) (cu.length - M)
      else .err .authenticationFailed := by
  simp only [fCcmsDec, ccmInputsOk_of hp hN, hK, hl, ne_eq, not_true_eq_false, if_false, Bool.not_true,
    Bool.false_eq_true]

/-- What a successful `F_CCMS_DEC` returns fills the buffer again (R210). -/
theorem fCcmsDec_ok_length (K N : Octets) (L M : Nat) (a cu : Octets) (hK : K.length = 16) (out : Octets) (n : Nat)
    (h : fCcmsDec K N L M a cu = .ok out n) : out.length = cu.length ∧ n = cu.length - M := by
  simp only [fCcmsDec] at h
  split_ifs at h with h1 h2 h3 h4 h5
  · simp only [PureResult.ok.injEq] at h
    obtain ⟨rfl, rfl⟩ := h
    rw [ccmCrypt_length K N L _ hK, List.length_take]
    exact ⟨by omega, rfl⟩
  · simp only [PureResult.ok.injEq] at h
    obtain ⟨rfl, rfl⟩ := h
    refine ⟨?_, rfl⟩
    rw [List.length_append, ccmCrypt_length K N L _ hK, List.length_take, List.length_drop]
    omega

end Sys2Proof.Machine
end

