-- ==== Sys2Proof/Laws/Memory.lean ====
section
/-! SUPPORT. Memory: a write is read back at its address and nowhere else, and every memory operation keeps the
canonical form. -/

namespace Sys2Proof.Machine

/-- A canonical memory from `low` on lists nothing below `low`. -/
theorem readOctet_below : ∀ (m : Memory) (low x : Nat), Memory.wfFrom low m = true → x < low →
    readOctet m x = unlistedOctet
  | [], _, _, _, _ => rfl
  | (a, b) :: m, low, x, h, hx => by
    simp only [Memory.wfFrom, Bool.and_eq_true, decide_eq_true_eq] at h
    have hne : x ≠ a := by omega
    simp only [readOctet, if_neg hne]
    exact readOctet_below m (a + 1) x h.2 (by omega)

/-- A canonical memory from `low` on is canonical from any lower address on. -/
theorem Memory.wfFrom_mono {m : Memory} {low low' : Nat} (h : Memory.wfFrom low m = true) (hle : low' ≤ low) :
    Memory.wfFrom low' m = true := by
  cases m with
  | nil => rfl
  | cons c m =>
    obtain ⟨a, b⟩ := c
    simp only [Memory.wfFrom, Bool.and_eq_true, decide_eq_true_eq] at h ⊢
    exact ⟨⟨⟨by omega, h.1.1.2⟩, h.1.2⟩, h.2⟩

/-- A write is not seen at another address, in any memory. -/
theorem readOctet_writeOctet_other : ∀ (m : Memory) (x y : Nat) (v : Octet), y ≠ x →
    readOctet (writeOctet m x v) y = readOctet m y
  | [], x, y, v, h => by
    by_cases hv : v = unlistedOctet <;> simp [writeOctet, readOctet, hv, h]
  | (a, b) :: m, x, y, v, h => by
    have ih := readOctet_writeOctet_other m x y v h
    simp only [writeOctet]
    split_ifs with h1 h2 h3 h4
    · rfl
    · simp [readOctet, h]
    · subst h3; simp [readOctet, h]
    · subst h3; simp [readOctet, h]
    · simp only [readOctet, ih]

/-- A write is read back, in a canonical memory. -/
theorem readOctet_writeOctet_same : ∀ (m : Memory) (low x : Nat) (v : Octet), Memory.wfFrom low m = true →
    readOctet (writeOctet m x v) x = v
  | [], low, x, v, _ => by
    by_cases hv : v = unlistedOctet <;> simp [writeOctet, readOctet, hv]
  | (a, b) :: m, low, x, v, h => by
    have h' := h
    simp only [Memory.wfFrom, Bool.and_eq_true, decide_eq_true_eq] at h
    simp only [writeOctet]
    split_ifs with h1 h2 h3 h4
    · subst h2
      have hne : x ≠ a := by omega
      simp only [readOctet, if_neg hne]
      exact readOctet_below m (a + 1) x h.2 (by omega)
    · simp [readOctet]
    · subst h3; subst h4
      exact readOctet_below m (x + 1) x h.2 (by omega)
    · subst h3; simp [readOctet]
    · have hne : x ≠ a := fun e => h3 e
      simp only [readOctet, if_neg hne]
      exact readOctet_writeOctet_same m (a + 1) x v h.2

/-- A write keeps the canonical form. -/
theorem writeOctet_wfFrom : ∀ (m : Memory) (low x : Nat) (v : Octet), Memory.wfFrom low m = true → low ≤ x →
    x < Config.addrSpace → Memory.wfFrom low (writeOctet m x v) = true
  | [], low, x, v, _, hlow, hx => by
    by_cases hv : v = unlistedOctet <;> simp [writeOctet, Memory.wfFrom, hv, hlow, hx]
  | (a, b) :: m, low, x, v, h, hlow, hx => by
    have h' := h
    simp only [Memory.wfFrom, Bool.and_eq_true, decide_eq_true_eq] at h
    simp only [writeOctet]
    split_ifs with h1 h2 h3 h4
    · exact h'
    · simp only [Memory.wfFrom, Bool.and_eq_true, decide_eq_true_eq]
      exact ⟨⟨⟨hlow, hx⟩, by simp [h2]⟩, ⟨⟨by omega, h.1.1.2⟩, h.1.2⟩, h.2⟩
    · exact Memory.wfFrom_mono h.2 (by omega)
    · subst h3
      simp only [Memory.wfFrom, Bool.and_eq_true, decide_eq_true_eq]
      exact ⟨⟨⟨hlow, hx⟩, by simp [h4]⟩, h.2⟩
    · simp only [Memory.wfFrom, Bool.and_eq_true, decide_eq_true_eq]
      exact ⟨h.1, writeOctet_wfFrom m (a + 1) x v h.2 (by omega) hx⟩

/-- One octet written below 2^32 keeps a memory canonical. -/
theorem writeOctet_wf {m : Memory} {x : Nat} (v : Octet) (h : Memory.wf m = true) (hx : x < Config.addrSpace) :
    Memory.wf (writeOctet m x v) = true :=
  writeOctet_wfFrom m 0 x v h (Nat.zero_le _) hx

/-- A string written below 2^32 keeps a memory canonical. -/
theorem writeOctets_wf : ∀ (bs : Octets) (m : Memory) (p : Nat), Memory.wf m = true →
    p + bs.length ≤ Config.addrSpace → Memory.wf (writeOctets m p bs) = true
  | [], _, _, h, _ => h
  | b :: bs, m, p, h, hp => by
    simp only [List.length_cons] at hp
    exact writeOctets_wf bs _ (p + 1) (writeOctet_wf b h (by omega)) (by omega)

/-- A written string is not seen outside its addresses, in any memory. -/
theorem readOctet_writeOctets_outside : ∀ (bs : Octets) (m : Memory) (p y : Nat),
    y < p ∨ p + bs.length ≤ y → readOctet (writeOctets m p bs) y = readOctet m y
  | [], _, _, _, _ => rfl
  | b :: bs, m, p, y, h => by
    simp only [List.length_cons] at h
    simp only [writeOctets]
    rw [readOctet_writeOctets_outside bs _ (p + 1) y (by omega)]
    exact readOctet_writeOctet_other m p y b (by omega)

/-- A written string is read back octet by octet, in a canonical memory. -/
theorem readOctet_writeOctets_inside : ∀ (bs : Octets) (m : Memory) (p i : Nat), Memory.wf m = true →
    p + bs.length ≤ Config.addrSpace → i < bs.length → readOctet (writeOctets m p bs) (p + i) = bs.getD i 0
  | [], _, _, _, _, _, hi => absurd hi (Nat.not_lt_zero _)
  | b :: bs, m, p, 0, h, hp, _ => by
    simp only [writeOctets, Nat.add_zero, List.getD_cons_zero]
    rw [readOctet_writeOctets_outside bs _ (p + 1) p (by omega)]
    exact readOctet_writeOctet_same m 0 p b h
  | b :: bs, m, p, i + 1, h, hp, hi => by
    simp only [List.length_cons] at hp hi
    simp only [writeOctets, List.getD_cons_succ]
    have := readOctet_writeOctets_inside bs (writeOctet m p b) (p + 1) i (writeOctet_wf b h (by omega)) (by omega)
      (by omega)
    rwa [show p + (i + 1) = p + 1 + i by omega]

@[simp] theorem readOctets_length (m : Memory) (p n : Nat) : (readOctets m p n).length = n := by
  simp [readOctets]

@[simp] theorem readOctets_zero (m : Memory) (p : Nat) : readOctets m p 0 = [] := rfl

/-- The i-th octet read is the one at address p + i (R14). -/
theorem readOctets_getD (m : Memory) (p n i : Nat) (hi : i < n) : (readOctets m p n).getD i 0 = readOctet m (p + i) := by
  simp [readOctets, List.getD_eq_getElem?_getD, hi]

/-- Reading depends only on the octets read. -/
theorem readOctets_congr {m m' : Memory} {p n : Nat} (h : ∀ i, i < n → readOctet m (p + i) = readOctet m' (p + i)) :
    readOctets m p n = readOctets m' p n := by
  simp only [readOctets]
  exact List.map_congr_left fun i hi => h i (List.mem_range.mp hi)

/-- A string is read back where it was written, in a canonical memory. -/
theorem readOctets_writeOctets_same (bs : Octets) (m : Memory) (p : Nat) (h : Memory.wf m = true)
    (hp : p + bs.length ≤ Config.addrSpace) : readOctets (writeOctets m p bs) p bs.length = bs := by
  apply List.ext_getElem (by simp)
  intro i h1 h2
  have e := readOctet_writeOctets_inside bs m p i h hp h2
  rw [List.getD_eq_getElem?_getD, List.getElem?_eq_getElem h2, Option.getD_some] at e
  simp [readOctets, e]

/-- A string written elsewhere does not change what is read, in any memory. -/
theorem readOctets_writeOctets_disjoint (bs : Octets) (m : Memory) (p q n : Nat)
    (h : q + n ≤ p ∨ p + bs.length ≤ q) : readOctets (writeOctets m p bs) q n = readOctets m q n :=
  readOctets_congr fun i hi => readOctet_writeOctets_outside bs m p (q + i) (by omega)

/-- Writing the empty string changes nothing. -/
@[simp] theorem writeOctets_nil (m : Memory) (p : Nat) : writeOctets m p [] = m := rfl

/-- The memory after reset is canonical. -/
theorem reset_mem_wf : Memory.wf State.reset.mem = true := rfl

end Sys2Proof.Machine
end

