-- ==== Sys2Proof/Laws/State.lean ====
section
/-! SUPPORT. For each single update of State, what every field is after it: one lemma per field per update, true by
definition, so that no later proof unfolds a record update. -/

namespace Sys2Proof.Machine

/-! ### `setStatus` -/

@[simp] theorem State.setStatus_initialized (s : State) (c : StatusCode) :
    (s.setStatus c).initialized = s.initialized := rfl

@[simp] theorem State.setStatus_status (s : State) (c : StatusCode) :
    (s.setStatus c).status = c := rfl

@[simp] theorem State.setStatus_keyPtr (s : State) (c : StatusCode) :
    (s.setStatus c).keyPtr = s.keyPtr := rfl

@[simp] theorem State.setStatus_noncePtr (s : State) (c : StatusCode) :
    (s.setStatus c).noncePtr = s.noncePtr := rfl

@[simp] theorem State.setStatus_aPtr (s : State) (c : StatusCode) :
    (s.setStatus c).aPtr = s.aPtr := rfl

@[simp] theorem State.setStatus_lenA (s : State) (c : StatusCode) :
    (s.setStatus c).lenA = s.lenA := rfl

@[simp] theorem State.setStatus_mPtr (s : State) (c : StatusCode) :
    (s.setStatus c).mPtr = s.mPtr := rfl

@[simp] theorem State.setStatus_lenM (s : State) (c : StatusCode) :
    (s.setStatus c).lenM = s.lenM := rfl

@[simp] theorem State.setStatus_faulted (s : State) (c : StatusCode) :
    (s.setStatus c).faulted = s.faulted := rfl

@[simp] theorem State.setStatus_mem (s : State) (c : StatusCode) :
    (s.setStatus c).mem = s.mem := rfl

@[simp] theorem State.setStatus_platform (s : State) (c : StatusCode) :
    (s.setStatus c).platform = s.platform := rfl

@[simp] theorem State.setStatus_pending (s : State) (c : StatusCode) :
    (s.setStatus c).pending = s.pending := rfl

@[simp] theorem State.setStatus_observed (s : State) (c : StatusCode) :
    (s.setStatus c).observed = s.observed := rfl

@[simp] theorem State.setStatus_draws (s : State) (c : StatusCode) :
    (s.setStatus c).draws = s.draws := rfl

/-! ### `setInitialized` -/

@[simp] theorem State.setInitialized_initialized (s : State) :
    (s.setInitialized).initialized = true := rfl

@[simp] theorem State.setInitialized_status (s : State) :
    (s.setInitialized).status = s.status := rfl

@[simp] theorem State.setInitialized_keyPtr (s : State) :
    (s.setInitialized).keyPtr = s.keyPtr := rfl

@[simp] theorem State.setInitialized_noncePtr (s : State) :
    (s.setInitialized).noncePtr = s.noncePtr := rfl

@[simp] theorem State.setInitialized_aPtr (s : State) :
    (s.setInitialized).aPtr = s.aPtr := rfl

@[simp] theorem State.setInitialized_lenA (s : State) :
    (s.setInitialized).lenA = s.lenA := rfl

@[simp] theorem State.setInitialized_mPtr (s : State) :
    (s.setInitialized).mPtr = s.mPtr := rfl

@[simp] theorem State.setInitialized_lenM (s : State) :
    (s.setInitialized).lenM = s.lenM := rfl

@[simp] theorem State.setInitialized_faulted (s : State) :
    (s.setInitialized).faulted = s.faulted := rfl

@[simp] theorem State.setInitialized_mem (s : State) :
    (s.setInitialized).mem = s.mem := rfl

@[simp] theorem State.setInitialized_platform (s : State) :
    (s.setInitialized).platform = s.platform := rfl

@[simp] theorem State.setInitialized_pending (s : State) :
    (s.setInitialized).pending = s.pending := rfl

@[simp] theorem State.setInitialized_observed (s : State) :
    (s.setInitialized).observed = s.observed := rfl

@[simp] theorem State.setInitialized_draws (s : State) :
    (s.setInitialized).draws = s.draws := rfl

/-! ### `setLenM` -/

@[simp] theorem State.setLenM_initialized (s : State) (n : Nat) :
    (s.setLenM n).initialized = s.initialized := rfl

@[simp] theorem State.setLenM_status (s : State) (n : Nat) :
    (s.setLenM n).status = s.status := rfl

@[simp] theorem State.setLenM_keyPtr (s : State) (n : Nat) :
    (s.setLenM n).keyPtr = s.keyPtr := rfl

@[simp] theorem State.setLenM_noncePtr (s : State) (n : Nat) :
    (s.setLenM n).noncePtr = s.noncePtr := rfl

@[simp] theorem State.setLenM_aPtr (s : State) (n : Nat) :
    (s.setLenM n).aPtr = s.aPtr := rfl

@[simp] theorem State.setLenM_lenA (s : State) (n : Nat) :
    (s.setLenM n).lenA = s.lenA := rfl

@[simp] theorem State.setLenM_mPtr (s : State) (n : Nat) :
    (s.setLenM n).mPtr = s.mPtr := rfl

@[simp] theorem State.setLenM_lenM (s : State) (n : Nat) :
    (s.setLenM n).lenM = BitVec.ofNat 32 n := rfl

@[simp] theorem State.setLenM_faulted (s : State) (n : Nat) :
    (s.setLenM n).faulted = s.faulted := rfl

@[simp] theorem State.setLenM_mem (s : State) (n : Nat) :
    (s.setLenM n).mem = s.mem := rfl

@[simp] theorem State.setLenM_platform (s : State) (n : Nat) :
    (s.setLenM n).platform = s.platform := rfl

@[simp] theorem State.setLenM_pending (s : State) (n : Nat) :
    (s.setLenM n).pending = s.pending := rfl

@[simp] theorem State.setLenM_observed (s : State) (n : Nat) :
    (s.setLenM n).observed = s.observed := rfl

@[simp] theorem State.setLenM_draws (s : State) (n : Nat) :
    (s.setLenM n).draws = s.draws := rfl

/-! ### `storeOctets` -/

@[simp] theorem State.storeOctets_initialized (s : State) (p : Nat) (v : Octets) :
    (s.storeOctets p v).initialized = s.initialized := rfl

@[simp] theorem State.storeOctets_status (s : State) (p : Nat) (v : Octets) :
    (s.storeOctets p v).status = s.status := rfl

@[simp] theorem State.storeOctets_keyPtr (s : State) (p : Nat) (v : Octets) :
    (s.storeOctets p v).keyPtr = s.keyPtr := rfl

@[simp] theorem State.storeOctets_noncePtr (s : State) (p : Nat) (v : Octets) :
    (s.storeOctets p v).noncePtr = s.noncePtr := rfl

@[simp] theorem State.storeOctets_aPtr (s : State) (p : Nat) (v : Octets) :
    (s.storeOctets p v).aPtr = s.aPtr := rfl

@[simp] theorem State.storeOctets_lenA (s : State) (p : Nat) (v : Octets) :
    (s.storeOctets p v).lenA = s.lenA := rfl

@[simp] theorem State.storeOctets_mPtr (s : State) (p : Nat) (v : Octets) :
    (s.storeOctets p v).mPtr = s.mPtr := rfl

@[simp] theorem State.storeOctets_lenM (s : State) (p : Nat) (v : Octets) :
    (s.storeOctets p v).lenM = s.lenM := rfl

@[simp] theorem State.storeOctets_faulted (s : State) (p : Nat) (v : Octets) :
    (s.storeOctets p v).faulted = s.faulted := rfl

@[simp] theorem State.storeOctets_mem (s : State) (p : Nat) (v : Octets) :
    (s.storeOctets p v).mem = writeOctets s.mem p v := rfl

@[simp] theorem State.storeOctets_platform (s : State) (p : Nat) (v : Octets) :
    (s.storeOctets p v).platform = s.platform := rfl

@[simp] theorem State.storeOctets_pending (s : State) (p : Nat) (v : Octets) :
    (s.storeOctets p v).pending = s.pending := rfl

@[simp] theorem State.storeOctets_observed (s : State) (p : Nat) (v : Octets) :
    (s.storeOctets p v).observed = s.observed := rfl

@[simp] theorem State.storeOctets_draws (s : State) (p : Nat) (v : Octets) :
    (s.storeOctets p v).draws = s.draws := rfl

/-! ### `observe` -/

@[simp] theorem State.observe_initialized (s : State) (v : Word) :
    (s.observe v).initialized = s.initialized := rfl

@[simp] theorem State.observe_status (s : State) (v : Word) :
    (s.observe v).status = s.status := rfl

@[simp] theorem State.observe_keyPtr (s : State) (v : Word) :
    (s.observe v).keyPtr = s.keyPtr := rfl

@[simp] theorem State.observe_noncePtr (s : State) (v : Word) :
    (s.observe v).noncePtr = s.noncePtr := rfl

@[simp] theorem State.observe_aPtr (s : State) (v : Word) :
    (s.observe v).aPtr = s.aPtr := rfl

@[simp] theorem State.observe_lenA (s : State) (v : Word) :
    (s.observe v).lenA = s.lenA := rfl

@[simp] theorem State.observe_mPtr (s : State) (v : Word) :
    (s.observe v).mPtr = s.mPtr := rfl

@[simp] theorem State.observe_lenM (s : State) (v : Word) :
    (s.observe v).lenM = s.lenM := rfl

@[simp] theorem State.observe_faulted (s : State) (v : Word) :
    (s.observe v).faulted = s.faulted := rfl

@[simp] theorem State.observe_mem (s : State) (v : Word) :
    (s.observe v).mem = s.mem := rfl

@[simp] theorem State.observe_platform (s : State) (v : Word) :
    (s.observe v).platform = s.platform := rfl

@[simp] theorem State.observe_pending (s : State) (v : Word) :
    (s.observe v).pending = s.pending := rfl

@[simp] theorem State.observe_observed (s : State) (v : Word) :
    (s.observe v).observed = v :: s.observed := rfl

@[simp] theorem State.observe_draws (s : State) (v : Word) :
    (s.observe v).draws = s.draws := rfl

/-! ### `advanceDraws` -/

@[simp] theorem State.advanceDraws_initialized (s : State) (n : Nat) :
    (s.advanceDraws n).initialized = s.initialized := rfl

@[simp] theorem State.advanceDraws_status (s : State) (n : Nat) :
    (s.advanceDraws n).status = s.status := rfl

@[simp] theorem State.advanceDraws_keyPtr (s : State) (n : Nat) :
    (s.advanceDraws n).keyPtr = s.keyPtr := rfl

@[simp] theorem State.advanceDraws_noncePtr (s : State) (n : Nat) :
    (s.advanceDraws n).noncePtr = s.noncePtr := rfl

@[simp] theorem State.advanceDraws_aPtr (s : State) (n : Nat) :
    (s.advanceDraws n).aPtr = s.aPtr := rfl

@[simp] theorem State.advanceDraws_lenA (s : State) (n : Nat) :
    (s.advanceDraws n).lenA = s.lenA := rfl

@[simp] theorem State.advanceDraws_mPtr (s : State) (n : Nat) :
    (s.advanceDraws n).mPtr = s.mPtr := rfl

@[simp] theorem State.advanceDraws_lenM (s : State) (n : Nat) :
    (s.advanceDraws n).lenM = s.lenM := rfl

@[simp] theorem State.advanceDraws_faulted (s : State) (n : Nat) :
    (s.advanceDraws n).faulted = s.faulted := rfl

@[simp] theorem State.advanceDraws_mem (s : State) (n : Nat) :
    (s.advanceDraws n).mem = s.mem := rfl

@[simp] theorem State.advanceDraws_platform (s : State) (n : Nat) :
    (s.advanceDraws n).platform = s.platform := rfl

@[simp] theorem State.advanceDraws_pending (s : State) (n : Nat) :
    (s.advanceDraws n).pending = s.pending := rfl

@[simp] theorem State.advanceDraws_observed (s : State) (n : Nat) :
    (s.advanceDraws n).observed = s.observed := rfl

@[simp] theorem State.advanceDraws_draws (s : State) (n : Nat) :
    (s.advanceDraws n).draws = s.draws + n := rfl

/-! ### `setPending` -/

@[simp] theorem State.setPending_initialized (s : State) (ops : List HostOp) :
    (s.setPending ops).initialized = s.initialized := rfl

@[simp] theorem State.setPending_status (s : State) (ops : List HostOp) :
    (s.setPending ops).status = s.status := rfl

@[simp] theorem State.setPending_keyPtr (s : State) (ops : List HostOp) :
    (s.setPending ops).keyPtr = s.keyPtr := rfl

@[simp] theorem State.setPending_noncePtr (s : State) (ops : List HostOp) :
    (s.setPending ops).noncePtr = s.noncePtr := rfl

@[simp] theorem State.setPending_aPtr (s : State) (ops : List HostOp) :
    (s.setPending ops).aPtr = s.aPtr := rfl

@[simp] theorem State.setPending_lenA (s : State) (ops : List HostOp) :
    (s.setPending ops).lenA = s.lenA := rfl

@[simp] theorem State.setPending_mPtr (s : State) (ops : List HostOp) :
    (s.setPending ops).mPtr = s.mPtr := rfl

@[simp] theorem State.setPending_lenM (s : State) (ops : List HostOp) :
    (s.setPending ops).lenM = s.lenM := rfl

@[simp] theorem State.setPending_faulted (s : State) (ops : List HostOp) :
    (s.setPending ops).faulted = s.faulted := rfl

@[simp] theorem State.setPending_mem (s : State) (ops : List HostOp) :
    (s.setPending ops).mem = s.mem := rfl

@[simp] theorem State.setPending_platform (s : State) (ops : List HostOp) :
    (s.setPending ops).platform = s.platform := rfl

@[simp] theorem State.setPending_pending (s : State) (ops : List HostOp) :
    (s.setPending ops).pending = ops := rfl

@[simp] theorem State.setPending_observed (s : State) (ops : List HostOp) :
    (s.setPending ops).observed = s.observed := rfl

@[simp] theorem State.setPending_draws (s : State) (ops : List HostOp) :
    (s.setPending ops).draws = s.draws := rfl

/-! ### `setFaulted` -/

@[simp] theorem State.setFaulted_initialized (s : State) (f : Fault) :
    (s.setFaulted f).initialized = s.initialized := rfl

@[simp] theorem State.setFaulted_status (s : State) (f : Fault) :
    (s.setFaulted f).status = s.status := rfl

@[simp] theorem State.setFaulted_keyPtr (s : State) (f : Fault) :
    (s.setFaulted f).keyPtr = s.keyPtr := rfl

@[simp] theorem State.setFaulted_noncePtr (s : State) (f : Fault) :
    (s.setFaulted f).noncePtr = s.noncePtr := rfl

@[simp] theorem State.setFaulted_aPtr (s : State) (f : Fault) :
    (s.setFaulted f).aPtr = s.aPtr := rfl

@[simp] theorem State.setFaulted_lenA (s : State) (f : Fault) :
    (s.setFaulted f).lenA = s.lenA := rfl

@[simp] theorem State.setFaulted_mPtr (s : State) (f : Fault) :
    (s.setFaulted f).mPtr = s.mPtr := rfl

@[simp] theorem State.setFaulted_lenM (s : State) (f : Fault) :
    (s.setFaulted f).lenM = s.lenM := rfl

@[simp] theorem State.setFaulted_faulted (s : State) (f : Fault) :
    (s.setFaulted f).faulted = some f := rfl

@[simp] theorem State.setFaulted_mem (s : State) (f : Fault) :
    (s.setFaulted f).mem = s.mem := rfl

@[simp] theorem State.setFaulted_platform (s : State) (f : Fault) :
    (s.setFaulted f).platform = s.platform := rfl

@[simp] theorem State.setFaulted_pending (s : State) (f : Fault) :
    (s.setFaulted f).pending = s.pending := rfl

@[simp] theorem State.setFaulted_observed (s : State) (f : Fault) :
    (s.setFaulted f).observed = s.observed := rfl

@[simp] theorem State.setFaulted_draws (s : State) (f : Fault) :
    (s.setFaulted f).draws = s.draws := rfl

/-! ### `applyReset` -/

@[simp] theorem State.applyReset_initialized (s : State) :
    (s.applyReset).initialized = false := rfl

@[simp] theorem State.applyReset_status (s : State) :
    (s.applyReset).status = .none := rfl

@[simp] theorem State.applyReset_keyPtr (s : State) :
    (s.applyReset).keyPtr = Config.resetDraw s.draws s.keyPtr := rfl

@[simp] theorem State.applyReset_noncePtr (s : State) :
    (s.applyReset).noncePtr = Config.resetDraw (s.draws + 1) s.noncePtr := rfl

@[simp] theorem State.applyReset_aPtr (s : State) :
    (s.applyReset).aPtr = Config.resetDraw (s.draws + 2) s.aPtr := rfl

@[simp] theorem State.applyReset_lenA (s : State) :
    (s.applyReset).lenA = Config.resetDraw (s.draws + 3) s.lenA := rfl

@[simp] theorem State.applyReset_mPtr (s : State) :
    (s.applyReset).mPtr = Config.resetDraw (s.draws + 4) s.mPtr := rfl

@[simp] theorem State.applyReset_lenM (s : State) :
    (s.applyReset).lenM = Config.resetDraw (s.draws + 5) s.lenM := rfl

@[simp] theorem State.applyReset_faulted (s : State) :
    (s.applyReset).faulted = none := rfl

@[simp] theorem State.applyReset_mem (s : State) :
    (s.applyReset).mem = s.mem := rfl

@[simp] theorem State.applyReset_platform (s : State) :
    (s.applyReset).platform = s.platform := rfl

@[simp] theorem State.applyReset_pending (s : State) :
    (s.applyReset).pending = s.pending := rfl

@[simp] theorem State.applyReset_observed (s : State) :
    (s.applyReset).observed = s.observed := rfl

@[simp] theorem State.applyReset_draws (s : State) :
    (s.applyReset).draws = s.draws + 6 := rfl

/-! ### `writeReg` -/

@[simp] theorem State.writeReg_initialized (s : State) (r : Reg) (v : Word) :
    (s.writeReg r v).initialized = s.initialized := by cases r <;> rfl

@[simp] theorem State.writeReg_status (s : State) (r : Reg) (v : Word) :
    (s.writeReg r v).status = s.status := by cases r <;> rfl

@[simp] theorem State.writeReg_keyPtr (s : State) (r : Reg) (v : Word) :
    (s.writeReg r v).keyPtr = if r = .keyPtr then v else s.keyPtr := by cases r <;> rfl

@[simp] theorem State.writeReg_noncePtr (s : State) (r : Reg) (v : Word) :
    (s.writeReg r v).noncePtr = if r = .noncePtr then v else s.noncePtr := by cases r <;> rfl

@[simp] theorem State.writeReg_aPtr (s : State) (r : Reg) (v : Word) :
    (s.writeReg r v).aPtr = if r = .aPtr then v else s.aPtr := by cases r <;> rfl

@[simp] theorem State.writeReg_lenA (s : State) (r : Reg) (v : Word) :
    (s.writeReg r v).lenA = if r = .lenA then v else s.lenA := by cases r <;> rfl

@[simp] theorem State.writeReg_mPtr (s : State) (r : Reg) (v : Word) :
    (s.writeReg r v).mPtr = if r = .mPtr then v else s.mPtr := by cases r <;> rfl

@[simp] theorem State.writeReg_lenM (s : State) (r : Reg) (v : Word) :
    (s.writeReg r v).lenM = if r = .lenM then v else s.lenM := by cases r <;> rfl

@[simp] theorem State.writeReg_faulted (s : State) (r : Reg) (v : Word) :
    (s.writeReg r v).faulted = s.faulted := by cases r <;> rfl

@[simp] theorem State.writeReg_mem (s : State) (r : Reg) (v : Word) :
    (s.writeReg r v).mem = s.mem := by cases r <;> rfl

@[simp] theorem State.writeReg_platform (s : State) (r : Reg) (v : Word) :
    (s.writeReg r v).platform = s.platform := by cases r <;> rfl

@[simp] theorem State.writeReg_pending (s : State) (r : Reg) (v : Word) :
    (s.writeReg r v).pending = s.pending := by cases r <;> rfl

@[simp] theorem State.writeReg_observed (s : State) (r : Reg) (v : Word) :
    (s.writeReg r v).observed = s.observed := by cases r <;> rfl

@[simp] theorem State.writeReg_draws (s : State) (r : Reg) (v : Word) :
    (s.writeReg r v).draws = s.draws := by cases r <;> rfl

end Sys2Proof.Machine
end

