-- ==== Sys2Proof/Laws/Operands.lean ====
section
/-! SUPPORT. What the region checks decide, and what the shared ways of ending a command can answer. -/

namespace Sys2Proof.Machine

/-! ### The region checks -/

/-- No region of the list wraps or holds an address that is not admitted exactly when all are valid (R61, R62). -/
theorem regionFault_eq_none_iff (s : State) (rs : List Region) :
    regionFault s rs = none ↔ ∀ r ∈ rs, RegionValid s.platform r := by
  have hone : ∀ r : Region, RegionValid s.platform r ↔
      regionWraps r = false ∧ regionUnadmitted s.platform r = false := by
    intro r
    by_cases h0 : r.len = 0
    · simp [RegionValid, regionWraps, regionUnadmitted, h0]
    · constructor
      · rintro (h | ⟨h1, h2⟩)
        · exact absurd h h0
        · refine ⟨by simp [regionWraps, h0, h1], ?_⟩
          simp only [regionUnadmitted, List.any_eq_false, List.mem_range]
          intro i hi
          simp [h2 (r.start + i) ⟨by omega, by omega⟩]
      · rintro ⟨h1, h2⟩
        have h1' : r.start + r.len ≤ Config.addrSpace := by
          simpa [regionWraps, h0] using h1
        refine Or.inr ⟨h1', fun a ha => ?_⟩
        simp only [regionUnadmitted, List.any_eq_false, List.mem_range] at h2
        have := h2 (a - r.start) (by have := ha.1; have := ha.2; omega)
        rw [show r.start + (a - r.start) = a by have := ha.1; omega] at this
        have hlt : a < Config.addrSpace := by have := ha.2; omega
        simpa [hlt] using this
  have hany : regionFault s rs = none ↔
      rs.any regionWraps = false ∧ rs.any (regionUnadmitted s.platform) = false := by
    simp only [regionFault]
    cases rs.any regionWraps <;> cases rs.any (regionUnadmitted s.platform) <;> simp
  rw [hany]
  simp only [List.any_eq_false, hone, Bool.not_eq_true]
  exact ⟨fun h r hr => ⟨h.1 r hr, h.2 r hr⟩, fun h => ⟨fun r hr => (h r hr).1, fun r hr => (h r hr).2⟩⟩

/-- Two regions overlap exactly when they share an address (R63). -/
theorem regionsOverlap_eq_false_iff (r t : Region) : regionsOverlap r t = false ↔ RegionsDisjoint r t := by
  simp only [regionsOverlap, RegionsDisjoint, RegionHolds]
  constructor
  · intro h a ha
    obtain ⟨⟨h1, h2⟩, h3, h4⟩ := ha
    have hr : (r.len == 0) = false := by simp; omega
    have ht : (t.len == 0) = false := by simp; omega
    have e1 : decide (r.start < t.start + t.len) = true := by simp; omega
    have e2 : decide (t.start < r.start + r.len) = true := by simp; omega
    simp [hr, ht, e1, e2] at h
  · intro h
    by_contra hc
    simp only [Bool.not_eq_false, Bool.and_eq_true, Bool.not_eq_true', beq_eq_false_iff_ne, decide_eq_true_eq] at hc
    exact h (max r.start t.start) ⟨⟨by omega, by omega⟩, by omega, by omega⟩

/-- The checks of R62 and R63 pass exactly when the operands are as those rules ask. -/
theorem operandFault_eq_none_iff (s : State) (ro : List Region) (w : Region) :
    operandFault s ro w = none ↔ OperandsOk s ro w := by
  simp only [operandFault, OperandsOk]
  have hv := regionFault_eq_none_iff s (ro ++ [w])
  have hvalid : (∀ r ∈ ro ++ [w], RegionValid s.platform r) ↔
      (∀ r ∈ ro, RegionValid s.platform r) ∧ RegionValid s.platform w := by
    simp only [List.mem_append, List.mem_singleton]
    exact ⟨fun h => ⟨fun r hr => h r (Or.inl hr), h w (Or.inr rfl)⟩,
      fun h r hr => hr.elim (h.1 r) fun e => e ▸ h.2⟩
  rw [hvalid] at hv
  cases hf : regionFault s (ro ++ [w]) with
  | some f =>
    rw [hf] at hv
    simp only [reduceCtorEq, false_iff] at hv ⊢
    exact fun h => hv ⟨h.1, h.2.1⟩
  | none =>
    have hboth := hv.mp hf
    simp only []
    cases ho : ro.any (regionsOverlap w) with
    | true =>
      simp only [if_true, reduceCtorEq, false_iff]
      rintro ⟨_, _, h⟩
      obtain ⟨r, hr, hov⟩ := List.any_eq_true.mp ho
      have := (regionsOverlap_eq_false_iff w r).mpr (h r hr)
      rw [hov] at this
      exact absurd this (by decide)
    | false =>
      simp only [Bool.false_eq_true, if_false, true_iff]
      refine ⟨hboth.1, hboth.2, fun r hr => (regionsOverlap_eq_false_iff w r).mp ?_⟩
      have := List.any_eq_false.mp ho r hr
      simpa using this

/-- A command whose operands are in order goes on. -/
theorem whenOperandsOk_of_ok {s : State} {ro : List Region} {w : Region} (h : OperandsOk s ro w) (body : StepResult) :
    whenOperandsOk s ro w body = body := by
  simp only [whenOperandsOk, (operandFault_eq_none_iff s ro w).mpr h]

/-- A command that answers a next state passed its operand checks. -/
theorem whenOperandsOk_next {s t : State} {ro : List Region} {w : Region} {body : StepResult}
    (h : whenOperandsOk s ro w body = .next t) : OperandsOk s ro w ∧ body = .next t := by
  simp only [whenOperandsOk] at h
  cases hf : operandFault s ro w with
  | some f => rw [hf] at h; exact absurd h (by simp [raise])
  | none => rw [hf] at h; exact ⟨(operandFault_eq_none_iff s ro w).mp hf, h⟩

/-- The written region of checked operands lies inside the address space (R61). -/
theorem OperandsOk.written_fits {s : State} {ro : List Region} {w : Region} (h : OperandsOk s ro w)
    (hw : w.start < Config.addrSpace) : w.start + w.len ≤ Config.addrSpace := by
  rcases h.2.1 with h0 | h1
  · omega
  · exact h1.1

/-! ### How a command ends -/

/-- `finish` answers the state with that status and nothing else. -/
theorem finish_next {s t : State} {c : StatusCode} (h : finish s c = .next t) : t = s.setStatus c := by
  simp only [finish, Host.Outcome.next.injEq] at h
  exact h.symm

/-- An initialised engine goes on. -/
theorem whenInitialized_of {s : State} (h : s.initialized = true) (body : StepResult) :
    whenInitialized s body = body := by
  simp [whenInitialized, h]

/-- A command that answers a next state found the engine initialised. -/
theorem whenInitialized_next {s t : State} {body : StepResult} (h : whenInitialized s body = .next t) :
    s.initialized = true ∧ body = .next t := by
  cases hi : s.initialized with
  | true => rw [whenInitialized_of hi] at h; exact ⟨rfl, h⟩
  | false => simp [whenInitialized, hi, raise] at h

@[simp] theorem readRegion_length (s : State) (r : Region) : (readRegion s r).length = r.len := by
  simp [readRegion]

@[simp] theorem drawOctets_length (s : State) (n : Nat) (seen : Octets) : (drawOctets s n seen).length = n := by
  simp [drawOctets]

/-- A string stored at `M_PTR` is not seen outside the message region of its length (R69). -/
theorem storeMessage_outside (s : State) (v : Octets) (a : Nat) (h : ¬ RegionHolds (messageRegion s v.length) a) :
    readOctet (storeMessage s v).mem a = readOctet s.mem a := by
  simp only [RegionHolds, messageRegion] at h
  exact readOctet_writeOctets_outside v s.mem s.mPtr.toNat a (by omega)

end Sys2Proof.Machine
end

