-- ==== Sys2Proof/Laws/Stores.lean ====
section
/-! SUPPORT. For the two updates that write the message region, what every field is after it: one lemma per field, true
by definition. -/

namespace Sys2Proof.Machine

/-! ### `storeMessage` -/

@[simp] theorem storeMessage_initialized (s : State) (v : Octets) :
    (storeMessage s v).initialized = s.initialized := rfl

@[simp] theorem storeMessage_status (s : State) (v : Octets) :
    (storeMessage s v).status = s.status := rfl

@[simp] theorem storeMessage_keyPtr (s : State) (v : Octets) :
    (storeMessage s v).keyPtr = s.keyPtr := rfl

@[simp] theorem storeMessage_noncePtr (s : State) (v : Octets) :
    (storeMessage s v).noncePtr = s.noncePtr := rfl

@[simp] theorem storeMessage_aPtr (s : State) (v : Octets) :
    (storeMessage s v).aPtr = s.aPtr := rfl

@[simp] theorem storeMessage_lenA (s : State) (v : Octets) :
    (storeMessage s v).lenA = s.lenA := rfl

@[simp] theorem storeMessage_mPtr (s : State) (v : Octets) :
    (storeMessage s v).mPtr = s.mPtr := rfl

@[simp] theorem storeMessage_lenM (s : State) (v : Octets) :
    (storeMessage s v).lenM = s.lenM := rfl

@[simp] theorem storeMessage_faulted (s : State) (v : Octets) :
    (storeMessage s v).faulted = s.faulted := rfl

@[simp] theorem storeMessage_mem (s : State) (v : Octets) :
    (storeMessage s v).mem = writeOctets s.mem s.mPtr.toNat v := rfl

@[simp] theorem storeMessage_platform (s : State) (v : Octets) :
    (storeMessage s v).platform = s.platform := rfl

@[simp] theorem storeMessage_pending (s : State) (v : Octets) :
    (storeMessage s v).pending = s.pending := rfl

@[simp] theorem storeMessage_observed (s : State) (v : Octets) :
    (storeMessage s v).observed = s.observed := rfl

@[simp] theorem storeMessage_draws (s : State) (v : Octets) :
    (storeMessage s v).draws = s.draws := rfl

/-! ### `scrambleMessage` -/

@[simp] theorem scrambleMessage_initialized (s : State) (L : Nat) :
    (scrambleMessage s L).initialized = s.initialized := rfl

@[simp] theorem scrambleMessage_status (s : State) (L : Nat) :
    (scrambleMessage s L).status = s.status := rfl

@[simp] theorem scrambleMessage_keyPtr (s : State) (L : Nat) :
    (scrambleMessage s L).keyPtr = s.keyPtr := rfl

@[simp] theorem scrambleMessage_noncePtr (s : State) (L : Nat) :
    (scrambleMessage s L).noncePtr = s.noncePtr := rfl

@[simp] theorem scrambleMessage_aPtr (s : State) (L : Nat) :
    (scrambleMessage s L).aPtr = s.aPtr := rfl

@[simp] theorem scrambleMessage_lenA (s : State) (L : Nat) :
    (scrambleMessage s L).lenA = s.lenA := rfl

@[simp] theorem scrambleMessage_mPtr (s : State) (L : Nat) :
    (scrambleMessage s L).mPtr = s.mPtr := rfl

@[simp] theorem scrambleMessage_lenM (s : State) (L : Nat) :
    (scrambleMessage s L).lenM = s.lenM := rfl

@[simp] theorem scrambleMessage_faulted (s : State) (L : Nat) :
    (scrambleMessage s L).faulted = s.faulted := rfl

@[simp] theorem scrambleMessage_mem (s : State) (L : Nat) :
    (scrambleMessage s L).mem = writeOctets s.mem s.mPtr.toNat (drawOctets s s.lenM.toNat (ccmOctetsRead s L)) := rfl

@[simp] theorem scrambleMessage_platform (s : State) (L : Nat) :
    (scrambleMessage s L).platform = s.platform := rfl

@[simp] theorem scrambleMessage_pending (s : State) (L : Nat) :
    (scrambleMessage s L).pending = s.pending := rfl

@[simp] theorem scrambleMessage_observed (s : State) (L : Nat) :
    (scrambleMessage s L).observed = s.observed := rfl

@[simp] theorem scrambleMessage_draws (s : State) (L : Nat) :
    (scrambleMessage s L).draws = s.draws + s.lenM.toNat := rfl

end Sys2Proof.Machine
end

