-- ==== Sys2Proof/Laws/Commands.lean ====
section
/-! SUPPORT. One inversion lemma per command: if it answers a next state, then one of these cases holds. Proofs about
commands cite these instead of unfolding the meanings. -/

namespace Sys2Proof.Machine

/-- The key operand has 16 octets (R95). -/
@[simp] theorem readRegion_keyRegion_length (s : State) : (readRegion s (keyRegion s)).length = 16 := by
  simp [keyRegion, Config.keyLen]

/-- Everything a completing `INIT` does (R231). -/
theorem exec_init_next {l mac : Nat} {s t : State} (h : exec (.init l mac) s = .next t) :
    s.initialized = false ∧ t = s.setInitialized.setStatus .success := by
  cases hi : s.initialized with
  | true => simp [exec, execInit, hi, raise] at h
  | false =>
    simp only [exec, execInit, hi, Bool.false_eq_true, if_false] at h
    exact ⟨rfl, finish_next h⟩

/-- Everything a completing `ECB_ENC` does (R133). -/
theorem exec_ecbEnc_next {l mac : Nat} {s t : State} (h : exec (.ecbEnc l mac) s = .next t) :
    s.initialized = true ∧
      ((ecbLengthOk s.lenM.toNat = false ∧ t = s.setStatus .invalidLength) ∨
       (ecbLengthOk s.lenM.toNat = true ∧ OperandsOk s [keyRegion s] (messageRegion s 16) ∧
        t = (storeMessage s (aes128 (readRegion s (keyRegion s)) (readRegion s (messageRegion s 16)))).setStatus
          .success)) := by
  obtain ⟨hi, h⟩ := whenInitialized_next h
  refine ⟨hi, ?_⟩
  cases hl : ecbLengthOk s.lenM.toNat with
  | false => simp only [hl, Bool.not_false, if_true] at h; exact Or.inl ⟨rfl, finish_next h⟩
  | true =>
    simp only [hl, Bool.not_true, Bool.false_eq_true, if_false] at h
    obtain ⟨ho, h⟩ := whenOperandsOk_next h
    rw [fEcb_ok _ _ (readRegion_keyRegion_length s) (by simp [messageRegion])] at h
    exact Or.inr ⟨rfl, ho, finish_next h⟩

/-- Everything a completing `CBC_ENC_RAW` does (R166). -/
theorem exec_cbcEncRaw_next {l mac : Nat} {s t : State} (h : exec (.cbcEncRaw l mac) s = .next t) :
    s.initialized = true ∧
      ((cbcLengthOk s.lenM.toNat = false ∧ t = s.setStatus .invalidLength) ∨
       (cbcLengthOk s.lenM.toNat = true ∧ OperandsOk s [keyRegion s] (messageRegion s s.lenM.toNat) ∧
        t = (storeMessage s (cbcChain (readRegion s (keyRegion s))
          (readRegion s (messageRegion s s.lenM.toNat)))).setStatus .success)) := by
  obtain ⟨hi, h⟩ := whenInitialized_next h
  refine ⟨hi, ?_⟩
  cases hl : cbcLengthOk s.lenM.toNat with
  | false => simp only [hl, Bool.not_false, if_true] at h; exact Or.inl ⟨rfl, finish_next h⟩
  | true =>
    simp only [hl, Bool.not_true, Bool.false_eq_true, if_false] at h
    obtain ⟨ho, h⟩ := whenOperandsOk_next h
    rw [fCbcRaw_ok _ _ (readRegion_keyRegion_length s) (by simpa [messageRegion] using hl)] at h
    exact Or.inr ⟨rfl, ho, finish_next h⟩

/-- Everything a completing `CTR_ENC_RAW` does (R168). -/
theorem exec_ctrEncRaw_next {l mac : Nat} {s t : State} (h : exec (.ctrEncRaw l mac) s = .next t) :
    s.initialized = true ∧
      ((ctrLengthOk s.lenM.toNat = false ∧ t = s.setStatus .invalidLength) ∨
       (s.lenM.toNat = 0 ∧ t = s.setStatus .success) ∨
       (ctrLengthOk s.lenM.toNat = true ∧ s.lenM.toNat ≠ 0 ∧
        OperandsOk s [keyRegion s, nonceRegion s 16] (messageRegion s s.lenM.toNat) ∧
        t = (storeMessage s (ctr (readRegion s (keyRegion s)) (readRegion s (nonceRegion s 16))
          (rawCtrWidth s.platform) (readRegion s (messageRegion s s.lenM.toNat)))).setStatus .success)) := by
  obtain ⟨hi, h⟩ := whenInitialized_next h
  refine ⟨hi, ?_⟩
  cases hl : ctrLengthOk s.lenM.toNat with
  | false => simp only [hl, Bool.not_false, if_true] at h; exact Or.inl ⟨rfl, finish_next h⟩
  | true =>
    simp only [hl, Bool.not_true, Bool.false_eq_true, if_false] at h
    by_cases h0 : s.lenM.toNat = 0
    · rw [if_pos h0] at h; exact Or.inr (Or.inl ⟨h0, finish_next h⟩)
    · rw [if_neg h0] at h
      obtain ⟨ho, h⟩ := whenOperandsOk_next h
      rw [fCtrRaw_ok _ _ _ _ (readRegion_keyRegion_length s) (by simp [nonceRegion])
        (by simpa [messageRegion] using hl)] at h
      exact Or.inr (Or.inr ⟨rfl, h0, ho, finish_next h⟩)

/-- On checked arguments, `F_CCMS_ENC` succeeds on the operands of `CCMS_ENC` (R200, R201). -/
theorem ccmsEncResult_checked (s : State) (L M : Nat) (hp : ccmParametersOk L M = true)
    (hl : ccmEncLengthsOk s.lenA.toNat s.lenM.toNat M = true) :
    ∃ out, ccmsEncResult s L M = .ok out (s.lenM.toNat + M) ∧ out.length = s.lenM.toNat + M := by
  have hK : (readRegion s (keyRegion s)).length = 16 := readRegion_keyRegion_length s
  have e := fCcmsEnc_ok (readRegion s (keyRegion s)) (readRegion s (nonceRegion s (15 - L))) L M
    (readRegion s (dataRegion s)) (readRegion s (messageRegion s s.lenM.toNat)) hp (by simp [nonceRegion]) hK
    (by simpa [dataRegion, messageRegion] using hl)
  have hok : ∃ out n, ccmsEncResult s L M = .ok out n := by
    by_cases h0 : M = 0
    · exact ⟨_, _, by rw [ccmsEncResult, e, if_pos h0]⟩
    · exact ⟨_, _, by rw [ccmsEncResult, e, if_neg h0]⟩
  obtain ⟨out, n, hok⟩ := hok
  obtain ⟨h1, h2⟩ := fCcmsEnc_ok_length _ _ L M _ _ hp hK out n hok
  simp only [readRegion_length, messageRegion] at h2
  subst h2
  exact ⟨out, hok, h1⟩

/-- Everything a completing `CCMS_ENC` does (R201). -/
theorem exec_ccmsEnc_next {L M : Nat} {s t : State} (h : exec (.ccmsEnc L M) s = .next t) :
    s.initialized = true ∧
      ((ccmParametersOk L M = false ∧ t = s.setStatus .invalidParameter) ∨
       (ccmParametersOk L M = true ∧ ccmEncLengthsOk s.lenA.toNat s.lenM.toNat M = false ∧
        t = s.setStatus .invalidLength) ∨
       (ccmParametersOk L M = true ∧ ccmEncLengthsOk s.lenA.toNat s.lenM.toNat M = true ∧
        OperandsOk s (ccmReadOnly s L) (messageRegion s (s.lenM.toNat + M)) ∧
        ∃ out, ccmsEncResult s L M = .ok out (s.lenM.toNat + M) ∧ out.length = s.lenM.toNat + M ∧
          t = ((storeMessage s out).setLenM (s.lenM.toNat + M)).setStatus .success)) := by
  obtain ⟨hi, h⟩ := whenInitialized_next h
  refine ⟨hi, ?_⟩
  cases hp : ccmParametersOk L M with
  | false => simp only [hp, Bool.not_false, if_true] at h; exact Or.inl ⟨rfl, finish_next h⟩
  | true =>
    simp only [hp, Bool.not_true, Bool.false_eq_true, if_false] at h
    cases hl : ccmEncLengthsOk s.lenA.toNat s.lenM.toNat M with
    | false => simp only [hl, Bool.not_false, if_true] at h; exact Or.inr (Or.inl ⟨rfl, rfl, finish_next h⟩)
    | true =>
      simp only [hl, Bool.not_true, Bool.false_eq_true, if_false] at h
      obtain ⟨ho, h⟩ := whenOperandsOk_next h
      obtain ⟨out, hok, hlen⟩ := ccmsEncResult_checked s L M hp hl
      rw [hok] at h
      exact Or.inr (Or.inr ⟨rfl, rfl, ho, out, hok, hlen, finish_next h⟩)

/-- On checked arguments, `F_CCMS_DEC` succeeds or fails authentication on the operands of `CCMS_DEC`, and fails only
with a tag (R210, R211, R216). -/
theorem ccmsDecResult_checked (s : State) (L M : Nat) (hp : ccmParametersOk L M = true)
    (hl : ccmDecLengthsOk s.lenA.toNat s.lenM.toNat M = true) :
    (∃ out, ccmsDecResult s L M = .ok out (s.lenM.toNat - M) ∧ out.length = s.lenM.toNat) ∨
      (ccmsDecResult s L M = .err .authenticationFailed ∧ M ≠ 0) := by
  have hK : (readRegion s (keyRegion s)).length = 16 := readRegion_keyRegion_length s
  have e := fCcmsDec_checked (readRegion s (keyRegion s)) (readRegion s (nonceRegion s (15 - L))) L M
    (readRegion s (dataRegion s)) (readRegion s (messageRegion s s.lenM.toNat)) hp (by simp [nonceRegion]) hK
    (by simpa [dataRegion, messageRegion] using hl)
  have hcases : (∃ out n, ccmsDecResult s L M = .ok out n) ∨
      (ccmsDecResult s L M = .err .authenticationFailed ∧ M ≠ 0) := by
    rw [ccmsDecResult, e]
    split_ifs with h0 h1
    · exact Or.inl ⟨_, _, rfl⟩
    · exact Or.inl ⟨_, _, rfl⟩
    · exact Or.inr ⟨rfl, h0⟩
  rcases hcases with ⟨out, n, hok⟩ | herr
  · obtain ⟨h1, h2⟩ := fCcmsDec_ok_length _ _ L M _ _ hK out n hok
    simp only [readRegion_length, messageRegion] at h1 h2
    subst h2
    exact Or.inl ⟨out, hok, h1⟩
  · exact Or.inr herr

/-- Everything a completing `CCMS_DEC` does (R211, R213). -/
theorem exec_ccmsDec_next {L M : Nat} {s t : State} (h : exec (.ccmsDec L M) s = .next t) :
    s.initialized = true ∧
      ((ccmParametersOk L M = false ∧ t = s.setStatus .invalidParameter) ∨
       (ccmParametersOk L M = true ∧ ccmDecLengthsOk s.lenA.toNat s.lenM.toNat M = false ∧
        t = s.setStatus .invalidLength) ∨
       (ccmParametersOk L M = true ∧ ccmDecLengthsOk s.lenA.toNat s.lenM.toNat M = true ∧
        OperandsOk s (ccmReadOnly s L) (messageRegion s s.lenM.toNat) ∧
        ((∃ out, ccmsDecResult s L M = .ok out (s.lenM.toNat - M) ∧ out.length = s.lenM.toNat ∧
            t = ((storeMessage s out).setLenM (s.lenM.toNat - M)).setStatus .success) ∨
         (ccmsDecResult s L M = .err .authenticationFailed ∧ M ≠ 0 ∧
            t = (scrambleMessage s L).setStatus .authenticationFailed)))) := by
  obtain ⟨hi, h⟩ := whenInitialized_next h
  refine ⟨hi, ?_⟩
  cases hp : ccmParametersOk L M with
  | false => simp only [hp, Bool.not_false, if_true] at h; exact Or.inl ⟨rfl, finish_next h⟩
  | true =>
    simp only [hp, Bool.not_true, Bool.false_eq_true, if_false] at h
    cases hl : ccmDecLengthsOk s.lenA.toNat s.lenM.toNat M with
    | false => simp only [hl, Bool.not_false, if_true] at h; exact Or.inr (Or.inl ⟨rfl, rfl, finish_next h⟩)
    | true =>
      simp only [hl, Bool.not_true, Bool.false_eq_true, if_false] at h
      obtain ⟨ho, h⟩ := whenOperandsOk_next h
      refine Or.inr (Or.inr ⟨rfl, rfl, ho, ?_⟩)
      rcases ccmsDecResult_checked s L M hp hl with ⟨out, hok, hlen⟩ | ⟨herr, hM⟩
      · rw [hok] at h
        exact Or.inl ⟨out, hok, hlen, finish_next h⟩
      · rw [herr] at h
        exact Or.inr ⟨herr, hM, finish_next h⟩

end Sys2Proof.Machine
end

