-- ==== Sys2Proof/Laws/Flags.lean ====
section
/-! SUPPORT. The parameter and length checks as plain arithmetic (spec/60_exceptions.md R261, R262). -/

namespace Sys2Proof.Machine

theorem ecbLengthOk_iff (n : Nat) : ecbLengthOk n = true ↔ n = 16 := by
  simp [ecbLengthOk, Config.blk]

theorem cbcLengthOk_iff (n : Nat) : cbcLengthOk n = true ↔ 0 < n ∧ n % 16 = 0 ∧ n ≤ 255 := by
  simp only [cbcLengthOk, Config.maxLen, Bool.and_eq_true, Bool.not_eq_true', beq_eq_false_iff_ne, beq_iff_eq,
    decide_eq_true_eq]
  omega

theorem ctrLengthOk_iff (n : Nat) : ctrLengthOk n = true ↔ n ≤ 255 := by
  simp [ctrLengthOk, Config.maxLen]

theorem ccmParametersOk_iff (L M : Nat) :
    ccmParametersOk L M = true ↔ (2 ≤ L ∧ L ≤ 8) ∧ (M = 0 ∨ M = 4 ∨ M = 8 ∨ M = 16) := by
  simp only [ccmParametersOk, Config.lSet, Config.macSet, Bool.and_eq_true, List.contains_eq_mem, List.mem_cons,
    List.not_mem_nil, or_false, decide_eq_true_eq]
  omega

theorem ccmEncLengthsOk_iff (la lm M : Nat) :
    ccmEncLengthsOk la lm M = true ↔ la ≤ 255 ∧ lm + M ≤ 255 := by
  simp [ccmEncLengthsOk, Config.maxA, Config.maxLen]

theorem ccmDecLengthsOk_iff (la lm M : Nat) :
    ccmDecLengthsOk la lm M = true ↔ la ≤ 255 ∧ lm ≤ 255 ∧ M ≤ lm := by
  simp [ccmDecLengthsOk, Config.maxA, Config.maxLen, and_assoc]

end Sys2Proof.Machine
end

