-- ==== Sys2Proof/Laws/PerInstr.lean ====
section
/-! SUPPORT. A fact about every command as syntax, one lemma per constructor: the word of a well-formed command has
the fixed bits of its row of spec/opcode_table.json (mask 0xFFFFE00F, match = OP). -/

namespace Sys2Proof.Laws

/-- The mask of the fixed bits, the same for every row of spec/opcode_table.json: `OP` and `RSV`. -/
def opcodeMask : Word := 0xFFFFE00F

/-- The fixed bits of a word put together from fields that fit are its `OP`. -/
theorem fixedBits_of_fields (op l mac : Nat) (hop : op < 16) (hl : l < 16) (hm : mac < 32) :
    BitVec.ofNat 32 (op ||| l <<< 4 ||| mac <<< 8) &&& opcodeMask = BitVec.ofNat 32 op := by
  have key : ∀ (o : Fin 16) (a : Fin 16) (b : Fin 32),
      BitVec.ofNat 32 (o.val ||| a.val <<< 4 ||| b.val <<< 8) &&& opcodeMask = BitVec.ofNat 32 o.val := by
    decide +kernel
  exact key ⟨op, hop⟩ ⟨l, hl⟩ ⟨mac, hm⟩

/-- The fixed bits of a well-formed command's word are those of its row. -/
def OpcodeRow.Statement (i : Instr) : Prop :=
  i.wellFormed = true → encode i &&& opcodeMask = BitVec.ofNat 32 (opcode i)

theorem OpcodeRow.of_fits (i : Instr) (hop : opcode i < 16) : OpcodeRow.Statement i := by
  intro h
  simp only [Instr.wellFormed, lFits, macFits, Bool.and_eq_true, decide_eq_true_eq] at h
  exact fixedBits_of_fields _ _ _ hop h.1 h.2

theorem OpcodeRow.init (l mac : Nat) : OpcodeRow.Statement (.init l mac) := OpcodeRow.of_fits _ (by simp [opcode])

theorem OpcodeRow.ccmsEnc (l mac : Nat) : OpcodeRow.Statement (.ccmsEnc l mac) := OpcodeRow.of_fits _ (by simp [opcode])

theorem OpcodeRow.ccmsDec (l mac : Nat) : OpcodeRow.Statement (.ccmsDec l mac) := OpcodeRow.of_fits _ (by simp [opcode])

theorem OpcodeRow.cbcEncRaw (l mac : Nat) : OpcodeRow.Statement (.cbcEncRaw l mac) := OpcodeRow.of_fits _ (by simp [opcode])

theorem OpcodeRow.ctrEncRaw (l mac : Nat) : OpcodeRow.Statement (.ctrEncRaw l mac) := OpcodeRow.of_fits _ (by simp [opcode])

theorem OpcodeRow.ecbEnc (l mac : Nat) : OpcodeRow.Statement (.ecbEnc l mac) := OpcodeRow.of_fits _ (by simp [opcode])

end Sys2Proof.Laws
end

