-- ==== Sys2Proof/Laws/Step.lean ====
section
/-! SUPPORT. One inversion lemma for an event and one for a step: if it answers a next state, then one of these cases
holds. -/

namespace Sys2Proof.Machine

/-- Everything a completing `CMD` write does (R230). -/
theorem issueCommand_next {w : Word} {s t : State} (h : issueCommand w s = .next t) :
    (∃ why, decode w = .reserved why ∧ t = s.setStatus .invalidParameter) ∨
      (∃ i, decode w = .command i ∧ exec i s = .next t) := by
  simp only [issueCommand] at h
  cases hd : decode w with
  | reserved why =>
    rw [hd] at h
    simp only [finish, Host.Outcome.next.injEq] at h
    exact Or.inl ⟨why, rfl, h.symm⟩
  | command i => rw [hd] at h; exact Or.inr ⟨i, rfl, h⟩

/-- Everything a completing event does (R64, R73, R290). -/
theorem hostAccess_next {op : HostOp} {s t : State} (h : hostAccess op s = .next t) :
    (∃ size off v, op = .regWrite size off v ∧ accessedReg size off = some .cmd ∧ issueCommand v s = .next t) ∨
    (∃ size off v r, op = .regWrite size off v ∧ accessedReg size off = some r ∧ r ≠ .cmd ∧ t = s.writeReg r v) ∨
    (∃ size off r, op = .regRead size off ∧ accessedReg size off = some r ∧ t = s.observe (readReg s r)) ∨
    (∃ a v, op = .octetWrite a v ∧ inRegisterBlock s.platform a.toNat = false ∧ t = s.storeOctets a.toNat [v]) ∨
    (∃ a, op = .octetRead a ∧ inRegisterBlock s.platform a.toNat = false ∧
      t = s.observe ((readOctet s.mem a.toNat).setWidth 32)) ∨
    (op = .reset ∧ t = s.applyReset) := by
  cases op with
  | regWrite size off v =>
    simp only [hostAccess] at h
    cases hr : accessedReg size off with
    | none => rw [hr] at h; exact absurd h (by simp [raise])
    | some r =>
      rw [hr] at h
      by_cases hc : r = .cmd
      · subst hc; exact Or.inl ⟨size, off, v, rfl, hr, h⟩
      · refine Or.inr (Or.inl ⟨size, off, v, r, rfl, hr, hc, ?_⟩)
        cases r with
        | cmd => exact absurd rfl hc
        | _ => simp only [hostRegWrite, Host.Outcome.next.injEq] at h; exact h.symm
  | regRead size off =>
    simp only [hostAccess] at h
    cases hr : accessedReg size off with
    | none => rw [hr] at h; exact absurd h (by simp [raise])
    | some r =>
      rw [hr] at h
      simp only [Host.Outcome.next.injEq] at h
      exact Or.inr (Or.inr (Or.inl ⟨size, off, r, rfl, hr, h.symm⟩))
  | octetWrite a v =>
    simp only [hostAccess] at h
    cases hb : inRegisterBlock s.platform a.toNat with
    | true => simp [hb, raise] at h
    | false =>
      simp only [hb, Bool.false_eq_true, if_false, Host.Outcome.next.injEq] at h
      exact Or.inr (Or.inr (Or.inr (Or.inl ⟨a, v, rfl, hb, h.symm⟩)))
  | octetRead a =>
    simp only [hostAccess] at h
    cases hb : inRegisterBlock s.platform a.toNat with
    | true => simp [hb, raise] at h
    | false =>
      simp only [hb, Bool.false_eq_true, if_false, Host.Outcome.next.injEq] at h
      exact Or.inr (Or.inr (Or.inr (Or.inr (Or.inl ⟨a, rfl, hb, h.symm⟩))))
  | reset =>
    simp only [hostAccess, Host.Outcome.next.injEq] at h
    exact Or.inr (Or.inr (Or.inr (Or.inr (Or.inr ⟨rfl, h.symm⟩))))

/-- Everything a completing step does (R40, R73, R291). -/
theorem step_next {s t : State} (h : step s = .next t) :
    s.faulted = none ∧
      ((s.pending = [] ∧ t = s) ∨
       (∃ op rest, s.pending = op :: rest ∧ hostAccess op (s.setPending rest) = .next t)) := by
  simp only [step] at h
  cases hf : s.faulted with
  | some f => rw [hf] at h; exact absurd h (by simp [raise])
  | none =>
    rw [hf] at h
    refine ⟨rfl, ?_⟩
    cases hp : s.pending with
    | nil => rw [hp] at h; simp only [Host.Outcome.next.injEq] at h; exact Or.inl ⟨rfl, h.symm⟩
    | cons op rest => rw [hp] at h; exact Or.inr ⟨op, rest, rfl, h⟩

end Sys2Proof.Machine
end

