-- ==== Sys2Proof/Tests/Slice0.lean ====
section
/-! SUPPORT. The model's own tests. Expected values are those of spec/95_test_vectors.md and the examples of the rules
named; a `witness_` theorem shows a concrete state and operands that meet the hypotheses of the statement it names. -/

namespace Sys2Proof.Tests

open Sys2Proof.Machine

-- One theorem after another: each kernel evaluation below otherwise holds a thread, and its stack, of its own.
set_option Elab.async false

/-! ### Helpers -/

/-- The n octets of a number written in hexadecimal, first octet first. -/
def hex (n v : Nat) : Octets := bigEndian n v

/-- The octets from a up to b, b excluded. -/
def upTo (a b : Nat) : Octets := (List.range (b - a)).map fun i => BitVec.ofNat 8 (a + i)

/-- Memory holding the strings at their addresses. -/
def place (l : List (Nat × Octets)) : Memory := l.foldl (fun m pv => writeOctets m pv.1 pv.2) []

/-- Memory admitted on 0x1000..0x3FFF (spec/95_test_vectors.md section 6), and at the two ends of the space. -/
def testPlatform : Platform where
  engineBlock := 0x2000000
  decodedExtra := 0
  admitted := [⟨0x1000, 0x3000⟩, ⟨0, 4⟩, ⟨0xFFFFFFF0, 16⟩]
  rawCtrWidthCode := 1

/-- An initialised engine: key at 0x1000, nonce at 0x1100, no associated data, n octets of message at 0x2000. -/
def ready (m : Memory) (n : Word) : State :=
  { State.reset with
    initialized := true, status := .success, platform := testPlatform, mem := m
    keyPtr := 0x1000, noncePtr := 0x1100, aPtr := 0x1200, lenA := 0, mPtr := 0x2000, lenM := n }

/-- The outcome is a next state with this property. -/
def answers (r : StepResult) (p : State → Bool) : Bool :=
  match r with
  | .next t => p t
  | .fault _ => false
  | .refused _ => false

/-- The outcome is this fault. -/
def faultsWith (r : StepResult) (f : Fault) : Bool :=
  match r with
  | .next _ => false
  | .fault g => g == f
  | .refused _ => false

theorem exists_next_of_answers {r : StepResult} {p : State → Bool} (h : answers r p = true) :
    ∃ t, r = .next t ∧ p t = true := by
  cases r with
  | next t => exact ⟨t, rfl, h⟩
  | fault f => exact absurd h (by simp [answers])
  | refused f => exact absurd h (by simp [answers])

/-- "OpenWSN!" of the example scenario (spec/95_test_vectors.md section 5.1), and its encryption. -/
def openWsn : Octets := hex 8 0x4F70656E57534E21

def openWsnSealed : Octets := hex 16 0x9A08976357C6C24DC1922FC755358439

/-! ### Well-formedness: each check refuses an ill-formed term -/

theorem test_lFits_refuses : lFits 15 = true ∧ lFits 16 = false := by decide

theorem test_macFits_refuses : macFits 31 = true ∧ macFits 32 = false := by decide

theorem test_wellFormed_refuses : (Instr.ccmsEnc 16 0).wellFormed = false ∧ (Instr.ecbEnc 0 32).wellFormed = false ∧
    (Instr.ccmsDec 15 31).wellFormed = true := by decide

/-! ### Decoding: words from R90's fields, R101 and spec/95_test_vectors.md section 2 -/

theorem test_decode_init : decode 0b0000000000000000000_00000_0000_0001 = .command (.init 0 0) := by decide

theorem test_decode_ccmsEnc : decode 0b0000000000000000000_01000_0010_0010 = .command (.ccmsEnc 2 8) := by decide

theorem test_decode_ccmsDec : decode 0b0000000000000000000_11111_1111_0011 = .command (.ccmsDec 15 31) := by decide

theorem test_decode_cbcEncRaw : decode 0b0000000000000000000_00000_0000_0100 = .command (.cbcEncRaw 0 0) := by decide

theorem test_decode_ctrEncRaw : decode 0b0000000000000000000_00000_0000_0101 = .command (.ctrEncRaw 0 0) := by decide

theorem test_decode_ecbEnc : decode 0b0000000000000000000_01111_0010_0110 = .command (.ecbEnc 2 15) := by decide

theorem test_decode_reserved : decode 0x00000000 = .reserved .reservedOp ∧ decode 0x00000007 = .reserved .reservedOp ∧
    decode 0x0000000F = .reserved .reservedOp ∧ decode 0x00002006 = .reserved .reservedBits ∧
    decode 0x80000001 = .reserved .reservedBits ∧ decode 0xFFFFFFFF = .reserved .reservedBits := by decide

theorem test_encode_examples : encode (.init 0 0) = 0x00000001 ∧ encode (.ccmsEnc 2 8) = 0x00000822 ∧
    encode (.ccmsDec 2 8) = 0x00000823 ∧ encode (.ccmsEnc 2 16) = 0x00001022 ∧ encode (.ccmsEnc 8 4) = 0x00000482 ∧
    encode (.cbcEncRaw 0 0) = 0x00000004 ∧ encode (.ctrEncRaw 0 0) = 0x00000005 ∧
    encode (.ecbEnc 0 0) = 0x00000006 := by decide

theorem test_decodeTableWord : decodeTableWord 32 0x00000F26 = some (.ecbEnc 2 15) ∧ decodeTableWord 32 0 = none := by
  decide

/-! ### The cipher: FIPS-197 and the tables of spec/95_test_vectors.md section 1 -/

theorem test_field_arithmetic : xtime 0x57 = 0xae ∧ gfMul 0x57 0x83 = 0xc1 ∧ gfMul 0x57 0x13 = 0xfe := by decide +kernel

theorem test_sbox : sbox 0x00 = 0x63 ∧ sbox 0x53 = 0xed ∧ sbox 0xff = 0x16 := by decide +kernel

theorem test_mixColumn : mixColumn 0xdb 0x13 0x53 0x45 = hex 4 0x8e4da1bc := by decide +kernel

theorem test_keyExpansion : let ws := keyExpansion (hex 16 0x2b7e151628aed2a6abf7158809cf4f3c)
    ws.getD 4 [] = hex 4 0xa0fafe17 ∧ ws.getD 43 [] = hex 4 0xb6630ca6 := by decide +kernel

theorem test_aes128_fips197_b : aes128 (hex 16 0x2b7e151628aed2a6abf7158809cf4f3c)
    (hex 16 0x3243f6a8885a308d313198a2e0370734) = hex 16 0x3925841d02dc09fbdc118597196a0b32 := by decide +kernel

/-! ### The modes: spec/95_test_vectors.md sections 3 to 5 -/

theorem test_cbcChain : cbcChain (upTo 0 16) (upTo 0 48) =
    hex 48 0x0a940bb5416ef045f1c39458c653ea5a3cf456b4ca488aa383c79c98b34797cb7e163e30ea49d32152a51a08a10ec02d := by
  decide +kernel

/-- The second keystream block depends on the width of the counter field (section 4). -/
theorem test_ctr_widths : [1, 2, 3, 16].map (fun W =>
    (ctr (upTo 0 16) (hex 16 0xf0f1f2f3f4f5f6f7f8f9fafbfcfdffff) W (zeros 20)).drop 16) =
    [hex 4 0xb281d700, hex 4 0x72b6701d, hex 4 0x2de14a47, hex 4 0x2de14a47] := by decide +kernel

/-- RFC 3610 packet vector #1 (section 5.2). -/
theorem test_ccm_rfc3610 : fCcmsEnc (hex 16 0xC0C1C2C3C4C5C6C7C8C9CACBCCCDCECF) (hex 13 0x00000003020100A0A1A2A3A4A5)
    2 8 (upTo 0 8) (upTo 8 31) =
    .ok (hex 31 0x588C979A61C663D2F066D0C2C0F989806D5F6B61DAC38417E8D12CFDF926E0) 31 := by decide +kernel

/-- NIST SP 800-38C Example 1 (section 5.2). -/
theorem test_ccm_sp800_38c : fCcmsEnc (upTo 0x40 0x50) (upTo 0x10 0x17) 8 4 (upTo 0 8) (upTo 0x20 0x24) =
    .ok (hex 8 0x7162015B4DAC255D) 8 := by decide +kernel

/-! ### Commands, one step each -/

/-- R231: `STATUS` = 0x00000101 after `INIT`. -/
theorem test_init : answers (exec (.init 0 0) State.reset) (fun t => readReg t .status == 0x101) = true := by decide

/-- Program 5: a second `INIT` is `DoubleInit`, a command before it is `NotInitialized`. -/
theorem test_init_order : faultsWith (exec (.init 0 0) (ready [] 16)) .doubleInit = true ∧
    faultsWith (exec (.ecbEnc 0 0) State.reset) .notInitialized = true := by decide

/-- Section 1.4, FIPS-197 C.1, with the fields the command ignores set (0x00000F26). -/
def ecbState : State :=
  ready (place [(0x1000, upTo 0 16), (0x2000, hex 16 0x00112233445566778899aabbccddeeff)]) 16

theorem test_ecbEnc : answers (exec (.ecbEnc 2 15) ecbState) (fun t =>
    t.status == .success && t.lenM == 16 && readOctets t.mem 0x1000 16 == upTo 0 16 &&
    readOctets t.mem 0x2000 17 == hex 17 0x69c4e0d86a7b0430d8cdb78070b4c55a00) = true := by decide +kernel

/-- Section 1.4: the key and the block share one octet, then none, at the edge. -/
theorem test_ecbEnc_regions :
    faultsWith (exec (.ecbEnc 0 0) ((ready [] 16).writeReg .mPtr 0x100F)) .operandOverlap = true ∧
    operandFault ((ready [] 16).writeReg .mPtr 0x1010) [⟨0x1000, 16⟩] ⟨0x1010, 16⟩ = none ∧
    faultsWith (exec (.ecbEnc 0 0) ((ready [] 16).writeReg .mPtr 0xFFFFFFF8)) .regionWraps = true ∧
    operandFault ((ready [] 16).writeReg .mPtr 0xFFFFFFF0) [⟨0x1000, 16⟩] ⟨0xFFFFFFF0, 16⟩ = none := by decide +kernel

/-- Section 3, zero key and two zero blocks. -/
theorem test_cbcEncRaw : answers (exec (.cbcEncRaw 0 0) (ready [] 32)) (fun t => t.status == .success &&
    readOctets t.mem 0x2000 32 == hex 32 0x66e94bd4ef8a2c3b884cfa59ca342b2ef795bd4a52e29ed713d313fa20e98dbc) = true := by
  decide +kernel

/-- Section 3: 17 octets, 0 octets and 256 octets. -/
theorem test_cbcEncRaw_lengths : ([17, 0, 250, 256] : List Word).all (fun n =>
    answers (exec (.cbcEncRaw 0 0) (ready [] n)) (fun t => readReg t .status == 0x103)) = true := by decide +kernel

/-- Section 4, first row; no octet of the IV is written back. -/
def ctrState : State := ready (place [(0x2000, upTo 1 6)]) 5

theorem test_ctrEncRaw : answers (exec (.ctrEncRaw 0 0) ctrState) (fun t => t.status == .success &&
    readOctets t.mem 0x2000 6 == hex 6 0x67eb48d0ea00 && readOctets t.mem 0x1100 16 == zeros 16) = true := by
  decide +kernel

/-- Section 4: an empty message succeeds with no region checked; 256 octets are too many. -/
theorem test_ctrEncRaw_lengths :
    answers (exec (.ctrEncRaw 0 0) ((ready [] 0).writeReg .keyPtr 0xFFFFFFFF)) (fun t => t.status == .success) = true ∧
    answers (exec (.ctrEncRaw 0 0) (ready [] 256)) (fun t => t.status == .invalidLength) = true := by decide +kernel

/-- Section 5.1. -/
def encState : State := ready (place [(0x2000, openWsn)]) 8

theorem test_ccmsEnc : answers (exec (.ccmsEnc 2 8) encState) (fun t => t.status == .success && t.lenM == 16 &&
    readOctets t.mem 0x2000 16 == openWsnSealed) = true := by decide +kernel

/-- Section 5.3: parameters come before lengths; the largest message for M = 8 is 247 octets. -/
theorem test_ccmsEnc_checks :
    answers (exec (.ccmsEnc 1 6) ((ready [] 8).writeReg .lenA 300)) (fun t => readReg t .status == 0x102) = true ∧
    answers (exec (.ccmsEnc 2 8) (ready [] 248)) (fun t => readReg t .status == 0x103) = true ∧
    ccmEncLengthsOk 255 247 8 = true := by decide +kernel

/-- Section 5.4: the round trip leaves the received tag after the plaintext. -/
def decState : State := ready (place [(0x2000, openWsnSealed)]) 16

theorem test_ccmsDec : answers (exec (.ccmsDec 2 8) decState) (fun t => t.status == .success && t.lenM == 8 &&
    readOctets t.mem 0x2000 16 == openWsn ++ hex 8 0xC1922FC755358439) = true := by decide +kernel

/-- Section 5.4: the last tag octet altered. -/
def forgedState : State := ready (place [(0x2000, hex 16 0x9A08976357C6C24DC1922FC755358438)]) 16

theorem test_ccmsDec_forged : answers (exec (.ccmsDec 2 8) forgedState) (fun t =>
    readReg t .status == 0x104 && t.lenM == 16) = true := by decide +kernel

/-! ### Steps and host accesses -/

/-- R97: a reserved word before `INIT` gives `STATUS` = 0x00000002 and no fault (spec/95_test_vectors.md section 2). -/
theorem test_step_reserved : answers (step (State.reset.withFetchWord 32 0x80000001))
    (fun t => readReg t .status == 0x002) = true := by decide

theorem test_step_init : answers (step (State.reset.withFetchWord 32 1)) (fun t => t.initialized && t.pending == []) =
    true := by decide

/-- Section 2, register-level cases. -/
theorem test_registers :
    answers (hostAccess (hostRd .cmd) (ready [] 0)) (fun t => t.observed == [0]) = true ∧
    answers (hostAccess (hostWr .status 1) (ready [] 0)) (fun t => readReg t .status == 0x101) = true ∧
    faultsWith (hostAccess (.regWrite .octet 0x1C 0) (ready [] 0)) .badRegisterAccess = true ∧
    faultsWith (hostAccess (.regRead .word 0x02) (ready [] 0)) .badRegisterAccess = true ∧
    faultsWith (hostAccess (.regRead .word 0x20) (ready [] 0)) .badRegisterAccess = true := by decide

theorem test_octet_access :
    answers (hostAccess (.octetWrite 0x2000 0xAB) (ready [] 0)) (fun t => readOctet t.mem 0x2000 == 0xAB) = true ∧
    faultsWith (hostAccess (.octetWrite 0x4000001F 0xAB) (ready [] 0)) .badRegisterAccess = true ∧
    answers (hostAccess (.octetWrite 0x40000020 0xAB) (ready [] 0)) (fun t => t.initialized) = true := by decide

/-! ### Witnesses: states and operands that meet the hypotheses of the statements -/

theorem witness_DecodeOfEncodeIsIdentity : (Instr.ccmsEnc 0 0).wellFormed = true ∧
    (Instr.ccmsEnc 15 31).wellFormed = true := by decide

theorem witness_EncodeOfDecodeIsIdentity : decode 0x00001FF3 = .command (.ccmsDec 15 31) := by decide

theorem witness_DecodeAgreesWithOpcodeTable : decode 0x00001FF1 = .command (.init 15 31) ∧
    (0x00001FF1 : Word) &&& 0xFFFFE00F = BitVec.ofNat 32 1 ∧ (0x00000F26 : Word) &&& 0xFFFFE00F = BitVec.ofNat 32 6 ∧
    decode 7 = .reserved .reservedOp := by decide

theorem witness_StepRunsDecodedCommand : ecbState.faulted = none ∧
    (ecbState.withFetchWord 32 6).pending = hostWr .cmd 6 :: [] ∧ decode 6 = .command (.ecbEnc 0 0) :=
  ⟨rfl, rfl, by decide⟩

theorem witness_ReservedWordReportsInvalidParameter :
    (((0x00002006 : Word).extractLsb' 0 4).toNat = 6 ∧ (0x00002006 : Word).extractLsb' 13 19 ≠ 0) ∧
    ((0x0000000F : Word).extractLsb' 0 4).toNat = 15 ∧ State.reset.faulted = none ∧
    (State.reset.withFetchWord 32 0x2006).pending = hostWr .cmd 0x2006 :: [] :=
  ⟨by decide, by decide, rfl, rfl⟩

theorem witness_InitCompletes : State.reset.initialized = false := rfl

theorem witness_CommandsOutOfOrderFault : (ready [] 0).initialized = true ∧ State.reset.initialized = false ∧
    opcode (.ecbEnc 0 0) ≠ 1 := by decide

theorem witness_UnacceptedParametersReported : (ready [] 0).initialized = true ∧ (1 : Nat) < 2 ∧ (8 : Nat) < 9 ∧
    (6 : Nat) ≠ 0 ∧ (6 : Nat) ≠ 4 ∧ (6 : Nat) ≠ 8 ∧ (6 : Nat) ≠ 16 := by decide

theorem witness_UnacceptedLengthsReported : (ready [] 15).initialized = true ∧ (ready [] 15).lenM.toNat ≠ 16 ∧
    (ready [] 0).lenM.toNat = 0 ∧ (ready [] 17).lenM.toNat % 16 ≠ 0 ∧ 255 < (ready [] 256).lenM.toNat ∧
    255 < ((ready [] 8).writeReg .lenA 256).lenA.toNat ∧ 255 < (ready [] 248).lenM.toNat + 8 ∧
    (ready [] 7).lenM.toNat < 8 := by decide

theorem witness_RejectedCommandChangesOnlyStatus :
    (∃ t, exec (.ccmsEnc 2 8) (ready [] 248) = .next t ∧ (t.status == .invalidLength) = true) ∧
    (∃ t, exec (.ccmsDec 2 6) (ready [] 16) = .next t ∧ (t.status == .invalidParameter) = true) :=
  ⟨exists_next_of_answers (by decide +kernel), exists_next_of_answers (by decide +kernel)⟩

/-- Each command completes; the witness of every statement about a completing command (`CommandsWriteTheirListedCodes`,
`CommandFrame`, `CommandMemoryFrame` (its rejected commands: the theorem above), `LenMWrittenOnlyByCcmSuccess`). -/
theorem witness_commands_complete :
    (∃ t, exec (.init 0 0) State.reset = .next t ∧ (t.status == .success) = true) ∧
    (∃ t, exec (.ecbEnc 0 0) ecbState = .next t ∧ (t.status == .success) = true) ∧
    (∃ t, exec (.cbcEncRaw 0 0) (ready [] 16) = .next t ∧ (t.status == .success) = true) ∧
    (∃ t, exec (.ctrEncRaw 0 0) ctrState = .next t ∧ (t.status == .success) = true) ∧
    (∃ t, exec (.ccmsEnc 2 8) encState = .next t ∧ (t.status == .success) = true) ∧
    (∃ t, exec (.ccmsDec 2 8) decState = .next t ∧ (t.status == .success) = true) ∧
    (∃ t, exec (.ccmsDec 2 8) forgedState = .next t ∧ (t.status == .authenticationFailed) = true) :=
  ⟨exists_next_of_answers (by decide +kernel), exists_next_of_answers (by decide +kernel),
    exists_next_of_answers (by decide +kernel), exists_next_of_answers (by decide +kernel),
    exists_next_of_answers (by decide +kernel), exists_next_of_answers (by decide +kernel),
    exists_next_of_answers (by decide +kernel)⟩

theorem witness_EcbEncCompletes : ecbState.initialized = true ∧ ecbState.lenM.toNat = 16 ∧
    OperandsOk ecbState [keyRegion ecbState] (messageRegion ecbState 16) ∧ Memory.wf ecbState.mem = true :=
  ⟨rfl, rfl, (operandFault_eq_none_iff _ _ _).mp (by decide +kernel), by decide +kernel⟩

/-- The largest accepted length. -/
theorem witness_CbcEncRawCompletes : (ready [] 240).initialized = true ∧ 0 < (ready [] 240).lenM.toNat ∧
    (ready [] 240).lenM.toNat % 16 = 0 ∧ (ready [] 240).lenM.toNat ≤ 255 ∧
    OperandsOk (ready [] 240) [keyRegion (ready [] 240)] (messageRegion (ready [] 240) 240) ∧
    Memory.wf (ready [] 240).mem = true :=
  ⟨rfl, by decide, by decide, by decide, (operandFault_eq_none_iff _ _ _).mp (by decide +kernel), rfl⟩

/-- The empty message, and the longest. -/
theorem witness_CtrEncRawCompletes : (ready [] 0).initialized = true ∧ (ready [] 0).lenM.toNat = 0 ∧
    (ready [] 255).initialized = true ∧ 0 < (ready [] 255).lenM.toNat ∧ (ready [] 255).lenM.toNat ≤ 255 ∧
    OperandsOk (ready [] 255) [keyRegion (ready [] 255), nonceRegion (ready [] 255) 16]
      (messageRegion (ready [] 255) 255) ∧ Memory.wf (ready [] 255).mem = true :=
  ⟨rfl, rfl, rfl, by decide, by decide, (operandFault_eq_none_iff _ _ _).mp (by decide +kernel), rfl⟩

theorem witness_CbcOfOneBlockIsEcb : ecbState.lenM.toNat = 16 := rfl

theorem witness_CbcChainFollowsItsRecurrence : (zeros 16).length = 16 ∧ (zeros 32).length = 16 * 2 := by decide

theorem witness_CounterIncrementIsModular : (1 : Nat) ≤ 1 ∧ (16 : Nat) ≤ 16 ∧ (zeros 16).length = 16 := by decide

theorem witness_CtrOctetFormula : (zeros 16).length = 16 ∧ (1 : Nat) ≤ 16 ∧ 254 < (zeros 255).length := by
  decide +kernel +kernel

theorem witness_CtrIsItsOwnInverse : (zeros 16).length = 16 ∧ 0 < (zeros 1).length ∧
    (zeros 1).getD 0 0 = (zeros 2).getD 0 0 := by decide

/-- The last octet of the IV may be 0xFF when there is one keystream block. -/
theorem witness_RawCtrWidthIrrelevantWithoutCarry : (zeros 16).length = 16 ∧ (upTo 0xF0 0x100).length = 16 ∧
    intOfBigEndian ((upTo 0xF0 0x100).drop 15) + keystreamBlocks (zeros 16).length - 1 ≤ 255 ∧
    intOfBigEndian ((upTo 0xF0 0x100).drop 15) = 255 := by decide +kernel

theorem witness_CtrEncRawTwiceRestoresMemory : Memory.wf ctrState.mem = true ∧
    ∃ t, exec (.ctrEncRaw 0 0) ctrState = .next t ∧ (t.status == .success) = true :=
  ⟨by decide +kernel, exists_next_of_answers (by decide +kernel)⟩

/-- `KeyExpansionFollowsItsRecurrence` and `CipherIsAPermutation`: a key and blocks of 16 octets. -/
theorem witness_key_and_blocks : (upTo 0 16).length = 16 ∧ (zeros 16).length = 16 ∧
    aes128 (zeros 16) (zeros 16) = hex 16 0x66e94bd4ef8a2c3b884cfa59ca342b2e := by decide +kernel

theorem witness_HeaderFlagsLayout : (2 : Nat) ≤ 2 ∧ (8 : Nat) ≤ 8 ∧ flagsB0 255 8 16 = 0x7F := by decide +kernel

theorem witness_AuthInputIsWholeBlocks : (zeros 13).length = 15 - 2 ∧ (zeros 7).length = 15 - 8 := by decide

theorem witness_CcmCounterNeverWraps : (zeros 13).length = 15 - 2 ∧ (16 : Nat) ≤ 16 := by decide

theorem witness_CcmRoundTrip : ([] : Octets).length ≤ 255 ∧ openWsn.length + 8 ≤ 255 ∧ (zeros 13).length = 15 - 2 ∧
    fCcmsEnc (zeros 16) (zeros 13) 2 8 [] openWsn = .ok openWsnSealed 16 := by decide +kernel

theorem witness_NoTagEncryptsOnly : (zeros 16).length = 16 ∧ (zeros 13).length = 15 - 2 ∧ (zeros 255).length ≤ 255 := by
  decide +kernel

/-- The longest output, with the longest associated data. -/
def fullState : State := ((ready [] 247).writeReg .aPtr 0x3000).writeReg .lenA 255

theorem witness_CcmsEncCompletes : fullState.initialized = true ∧ fullState.lenA.toNat ≤ 255 ∧
    fullState.lenM.toNat + 8 ≤ 255 ∧
    OperandsOk fullState [keyRegion fullState, nonceRegion fullState (15 - 2), dataRegion fullState]
      (messageRegion fullState (fullState.lenM.toNat + 8)) ∧ Memory.wf fullState.mem = true :=
  ⟨rfl, by decide, by decide, (operandFault_eq_none_iff _ _ _).mp (by decide +kernel), rfl⟩

/-- With a tag that is the expected one, and with no tag. -/
theorem witness_CcmsDecCompletes :
    (decState.initialized = true ∧ decState.lenA.toNat ≤ 255 ∧ decState.lenM.toNat ≤ 255 ∧ 8 ≤ decState.lenM.toNat ∧
      OperandsOk decState [keyRegion decState, nonceRegion decState (15 - 2), dataRegion decState]
        (messageRegion decState decState.lenM.toNat) ∧ Memory.wf decState.mem = true) ∧
    xorOctets ((cbcMac (zeros 16) (authInput (zeros 13) 2 8 []
        (ctr (zeros 16) (counterBlock (zeros 13) 2 1) 2 (openWsnSealed.take 8)))).take 8)
      ((aes128 (zeros 16) (counterBlock (zeros 13) 2 0)).take 8) = openWsnSealed.drop 8 ∧
    readRegion decState (messageRegion decState 16) = openWsnSealed ∧ readRegion decState (keyRegion decState) = zeros 16 :=
  ⟨⟨rfl, by decide, by decide, by decide, (operandFault_eq_none_iff _ _ _).mp (by decide +kernel), by decide +kernel⟩,
    by decide +kernel, by decide +kernel, by decide +kernel⟩

theorem witness_CcmsDecRejectsWrongTag :
    (forgedState.initialized = true ∧ forgedState.lenA.toNat ≤ 255 ∧ forgedState.lenM.toNat ≤ 255 ∧
      8 ≤ forgedState.lenM.toNat ∧
      OperandsOk forgedState [keyRegion forgedState, nonceRegion forgedState (15 - 2), dataRegion forgedState]
        (messageRegion forgedState forgedState.lenM.toNat)) ∧
    ccmsDecResult forgedState 2 8 = .err .authenticationFailed :=
  ⟨⟨rfl, by decide, by decide, by decide, (operandFault_eq_none_iff _ _ _).mp (by decide +kernel)⟩, by decide +kernel⟩

theorem witness_CcmCommandRoundTrip : Memory.wf encState.mem = true ∧
    ∃ t, exec (.ccmsEnc 2 8) encState = .next t ∧ (t.status == .success) = true :=
  ⟨by decide +kernel, exists_next_of_answers (by decide +kernel)⟩

/-- A state for the region clauses: the message pointer decides which of them applies. -/
def regionState (p : Word) : State := (ready [] 16).writeReg .mPtr p

/-- Only a wrap (the region's octets below 2^32 are admitted), only an unadmitted address, and both. -/
theorem witness_InvalidRegionsFault :
    ((regionState 0xFFFFFFF8).initialized = true ∧ opcode (.ecbEnc 0 0) ≠ 1 ∧
      argumentsOk (.ecbEnc 0 0) (regionState 0xFFFFFFF8) = true) ∧
    (regionWraps ⟨0xFFFFFFF8, 16⟩ = true ∧ regionUnadmitted testPlatform ⟨0xFFFFFFF8, 16⟩ = false) ∧
    (regionWraps ⟨0x0FFF, 16⟩ = false ∧ regionUnadmitted testPlatform ⟨0x0FFF, 16⟩ = true) ∧
    (regionWraps ⟨0xFFFFFFF8, 16⟩ = true ∧ regionUnadmitted testPlatform ⟨0x4000, 16⟩ = true) ∧
    regionUnadmitted testPlatform ⟨0x1000, 16⟩ = false := by decide +kernel

theorem witness_OverlappingOperandsFault : (regionState 0x100F).initialized = true ∧
    argumentsOk (.ecbEnc 0 0) (regionState 0x100F) = true ∧
    (∀ t ∈ readOnlyRegions (.ecbEnc 0 0) (regionState 0x100F), RegionValid (regionState 0x100F).platform t) ∧
    RegionValid (regionState 0x100F).platform (writtenRegion (.ecbEnc 0 0) (regionState 0x100F)) ∧
    RegionHolds ⟨0x1000, 16⟩ 0x100F ∧ RegionHolds (writtenRegion (.ecbEnc 0 0) (regionState 0x100F)) 0x100F :=
  ⟨rfl, by decide +kernel, (regionFault_eq_none_iff _ _).mp (by decide +kernel),
    (regionFault_eq_none_iff (regionState 0x100F) [writtenRegion (.ecbEnc 0 0) (regionState 0x100F)]).mp
      (by decide +kernel) _ (List.mem_singleton.mpr rfl),
    ⟨by decide, by decide⟩, ⟨by decide +kernel, by decide +kernel⟩⟩

theorem witness_EmptyAssociatedDataIgnoresPointer : encState.lenA = 0 ∧
    (∃ t, exec (.ccmsEnc 2 8) encState = .next t ∧ (t.status != .authenticationFailed) = true) ∧ decState.lenA = 0 ∧
    ∃ t, exec (.ccmsDec 2 8) decState = .next t ∧ (t.status != .authenticationFailed) = true :=
  ⟨rfl, exists_next_of_answers (by decide +kernel), rfl, exists_next_of_answers (by decide +kernel)⟩

/-- Two states that agree on the operands of `ECB_ENC` and on nothing else in memory. -/
def ecbStateElsewhere : State := ecbState.storeOctets 0x3000 [0xAA]

theorem witness_OperandsDetermineResult : Memory.wf ecbState.mem = true ∧ Memory.wf ecbStateElsewhere.mem = true ∧
    SameOctets (keyRegion ecbState) ecbState ecbStateElsewhere ∧
    SameOctets (messageRegion ecbState 16) ecbState ecbStateElsewhere ∧ ecbStateElsewhere.mem ≠ ecbState.mem := by
  refine ⟨by decide +kernel, by decide +kernel, ?_, ?_, by decide +kernel⟩ <;>
  · rintro a ⟨_, h⟩
    have h' : a < 0x3000 := Nat.lt_of_lt_of_le h (by decide)
    exact (readOctet_writeOctets_outside [0xAA] ecbState.mem 0x3000 a (Or.inl h')).symm

theorem witness_StepKeepsInvariant : machineInvariant (encState.withFetchWord 32 0x822) ∧
    ∃ t, step (encState.withFetchWord 32 0x822) = .next t ∧ (t.status == .success) = true :=
  ⟨⟨by decide +kernel, fun _ => by decide, rfl⟩, exists_next_of_answers (by decide +kernel)⟩

theorem witness_OnlyResetClearsInitialized :
    (∃ t, step (encState.withFetchWord 32 0x822) = .next t ∧ (t.initialized) = true) ∧
    (encState.withFetchWord 32 0x822).initialized = true ∧
    (encState.withFetchWord 32 0x822).pending = [hostWr .cmd 0x822] ∧ (hostWr .cmd 0x822).isReset = false :=
  ⟨exists_next_of_answers (by decide +kernel), rfl, rfl, rfl⟩

/-- `OperandRegisterReadsBack`, `CmdReadsZeroAndStatusIsReadOnly`, `HostOctetReadsBack`,
`FaultIsFinalAndIdleChangesNothing`, `ResetValues`: the accesses are pending and no fault is recorded. -/
theorem witness_host_accesses :
    ((ready [] 0).setPending [hostWr .keyPtr 0x12345677, hostRd .keyPtr]).pending =
      hostWr .keyPtr 0x12345677 :: hostRd .keyPtr :: [] ∧
    ((ready [] 0).setPending [hostRd .cmd]).pending = hostRd .cmd :: [] ∧
    ((ready [] 0).setPending [hostWr .status 1]).pending = hostWr .status 1 :: [] ∧
    ((ready [] 0).setPending [.octetWrite 0x2000 1, .octetRead 0x2000]).pending =
      .octetWrite 0x2000 1 :: .octetRead 0x2000 :: [] ∧
    inRegisterBlock (ready [] 0).platform (0x2000 : Addr).toNat = false ∧ Memory.wf (ready [] 0).mem = true ∧
    ((ready [] 0).setFaulted .doubleInit).faulted = some .doubleInit ∧
    (ready [] 0).pending = [] ∧ ((ready [] 0).setPending [.reset]).pending = .reset :: [] ∧
    (ready [] 0).faulted = none := by
  refine ⟨rfl, rfl, rfl, rfl, by decide, rfl, rfl, rfl, rfl, rfl⟩

/-- The last good offset, the first bad one, and the block's first and last octet. -/
theorem witness_BadRegisterAccessFaults :
    ((0x1C : Addr).toNat % 4 = 0 ∧ (0x1C : Addr).toNat < 0x20) ∧ (0x20 : Addr).toNat = 0x20 ∧
    (0x1E : Addr).toNat % 4 ≠ 0 ∧ (engineBase testPlatform).toNat ≤ (0x40000000 : Addr).toNat ∧
    (0x4000001F : Addr).toNat < (engineBase testPlatform).toNat + 32 := by decide

end Sys2Proof.Tests
end

/-! What commands leave alone in memory (spec/20_memory.md R69): a completing command either leaves memory as it
was or stores one string that fills its written region, and it stores only with `Success` or `AuthenticationFailed`. -/

namespace Sys2Proof.Machine

/-- The region a command may write always starts at `M_PTR` (R95). -/
theorem writtenRegion_eq_messageRegion (i : Instr) (s : State) :
    writtenRegion i s = messageRegion s (writtenRegion i s).len := by
  cases i <;> rfl

/-- Memory of `t` is that of `s` with one string of `n` octets written at `M_PTR`, and `t` does not report a rejected
command. -/
def StoresResult (n : Nat) (s t : State) : Prop :=
  ∃ v : Octets, v.length = n ∧ t.mem = (storeMessage s v).mem ∧
    t.status ≠ .invalidParameter ∧ t.status ≠ .invalidLength

/-- A command that ends with `Success` after writing `n` octets in place stores its result. -/
theorem storesResult_of_success {n : Nat} {s t : State} {v : Octets} (hlen : v.length = n)
    (hmem : t.mem = (storeMessage s v).mem) (hstatus : t.status = .success) : StoresResult n s t :=
  ⟨v, hlen, hmem, by simp [hstatus], by simp [hstatus]⟩

/-- A decryption that fails authentication fills the message region with drawn octets (R213). -/
theorem storesResult_of_authenticationFailed (s : State) (L : Nat) :
    StoresResult s.lenM.toNat s ((scrambleMessage s L).setStatus .authenticationFailed) :=
  ⟨drawOctets s s.lenM.toNat (ccmOctetsRead s L), by simp, rfl, by simp, by simp⟩

/-- All that a completing command can do to memory: nothing, or fill its written region without reporting a rejected
command. -/
theorem exec_mem_next {i : Instr} {s t : State} (h : exec i s = .next t) :
    t.mem = s.mem ∨ StoresResult (writtenRegion i s).len s t := by
  have hK : (readRegion s (keyRegion s)).length = 16 := readRegion_keyRegion_length s
  cases i with
  | init l mac =>
    obtain ⟨_, rfl⟩ := exec_init_next h
    exact .inl rfl
  | ecbEnc l mac =>
    obtain ⟨_, ⟨_, rfl⟩ | ⟨_, _, rfl⟩⟩ := exec_ecbEnc_next h
    · exact .inl rfl
    · exact .inr (storesResult_of_success (aes128_length _ _ hK) rfl rfl)
  | cbcEncRaw l mac =>
    obtain ⟨_, ⟨_, rfl⟩ | ⟨hlen, _, rfl⟩⟩ := exec_cbcEncRaw_next h
    · exact .inl rfl
    · obtain ⟨_, hblocks, _⟩ := (cbcLengthOk_iff _).mp hlen
      refine .inr (storesResult_of_success ?_ rfl rfl)
      simp only [cbcChain_length _ _ hK, readRegion_length, messageRegion, writtenRegion]
      omega
  | ctrEncRaw l mac =>
    obtain ⟨_, ⟨_, rfl⟩ | ⟨_, rfl⟩ | ⟨_, _, _, rfl⟩⟩ := exec_ctrEncRaw_next h
    · exact .inl rfl
    · exact .inl rfl
    · refine .inr (storesResult_of_success ?_ rfl rfl)
      rw [ctr_length _ _ _ _ hK, readRegion_length]
      rfl
  | ccmsEnc L M =>
    obtain ⟨_, ⟨_, rfl⟩ | ⟨_, _, rfl⟩ | ⟨_, _, _, out, _, hlen, rfl⟩⟩ := exec_ccmsEnc_next h
    · exact .inl rfl
    · exact .inl rfl
    · exact .inr (storesResult_of_success hlen rfl rfl)
  | ccmsDec L M =>
    obtain ⟨_, ⟨_, rfl⟩ | ⟨_, _, rfl⟩ | ⟨_, _, _, ⟨out, _, hlen, rfl⟩ | ⟨_, _, rfl⟩⟩⟩ := exec_ccmsDec_next h
    · exact .inl rfl
    · exact .inl rfl
    · exact .inr (storesResult_of_success hlen rfl rfl)
    · exact .inr (storesResult_of_authenticationFailed s L)

/-- A completing command keeps every octet outside the region it may write (R69, first sentence). -/
theorem exec_keepsMemoryOutside {i : Instr} {s t : State} (h : exec i s = .next t) :
    KeepsMemoryOutside (writtenRegion i s) s t := by
  intro a ha
  obtain hmem | ⟨v, hlen, hmem, _, _⟩ := exec_mem_next h
  · rw [hmem]
  · rw [writtenRegion_eq_messageRegion, ← hlen] at ha
    rw [hmem, storeMessage_outside s v a ha]

/-- A rejected command writes no octet (R69, second sentence). -/
theorem exec_mem_of_rejected {i : Instr} {s t : State} (h : exec i s = .next t)
    (hrejected : t.status = .invalidParameter ∨ t.status = .invalidLength) : t.mem = s.mem := by
  obtain hmem | ⟨_, _, _, hparameter, hlength⟩ := exec_mem_next h
  · exact hmem
  · exact absurd hrejected (not_or.mpr ⟨hparameter, hlength⟩)

/-- A host write to `CMD` issues the command (R34, R230). -/
theorem hostAccess_hostWr_cmd (w : Word) (s : State) : hostAccess (hostWr .cmd w) s = issueCommand w s := rfl

/-- A step whose next access is a `CMD` write issues that word, with the rest of the accesses left (R73). -/
theorem step_next_of_cmd_pending {s t : State} {w : Word} {rest : List HostOp}
    (hpending : s.pending = hostWr .cmd w :: rest) (h : step s = .next t) :
    issueCommand w (s.setPending rest) = .next t := by
  obtain ⟨_, ⟨hidle, _⟩ | ⟨op, rest', hop, haccess⟩⟩ := step_next h
  · rw [hpending] at hidle
    exact absurd hidle (List.cons_ne_nil _ _)
  · obtain ⟨rfl, rfl⟩ := List.cons.inj (hpending.symm.trans hop)
    rwa [hostAccess_hostWr_cmd] at haccess

/-- A reserved word changes only the status (R97). -/
theorem issueCommand_next_of_reserved {w : Word} {why : ReservedReason} {s t : State}
    (hw : decode w = .reserved why) (h : issueCommand w s = .next t) : t = s.setStatus .invalidParameter := by
  obtain ⟨_, _, ht⟩ | ⟨i, hi, _⟩ := issueCommand_next h
  · exact ht
  · rw [hw] at hi
    exact absurd hi (by simp)

/-- Settles O41: a completing command's memory is told by `exec_mem_next`, a reserved word's by R97. -/
theorem commandMemoryFrame : Obligations.CommandMemoryFrame := by
  refine ⟨fun i s t h => ⟨exec_keepsMemoryOutside h, exec_mem_of_rejected h⟩, ?_⟩
  intro s t w why rest hw hpending h
  rw [issueCommand_next_of_reserved hw (step_next_of_cmd_pending hpending h)]
  rfl

end Sys2Proof.Machine

/-! Which words the decoder reads as commands (spec/30_encoding.md R90, R92, R97, R98): the fields of a word as bit
slices and as masks, and `decode` in terms of its fields. -/

namespace Sys2Proof

/-- `OP` is the slice w[3:0] (R90). -/
theorem extractLsb'_op_toNat (w : Word) : (w.extractLsb' 0 4).toNat = opField w := by
  simp [opField, BitVec.extractLsb'_toNat]

/-- `L` is the slice w[7:4] (R90). -/
theorem extractLsb'_l_toNat (w : Word) : (w.extractLsb' 4 4).toNat = lFieldOf w := by
  simp [lFieldOf, BitVec.extractLsb'_toNat, Nat.shiftRight_eq_div_pow]

/-- `MAC` is the slice w[12:8] (R90). -/
theorem extractLsb'_mac_toNat (w : Word) : (w.extractLsb' 8 5).toNat = macFieldOf w := by
  simp [macFieldOf, BitVec.extractLsb'_toNat, Nat.shiftRight_eq_div_pow]

/-- `RSV` is the slice w[31:13] (R90): nothing of the word stands above it. -/
theorem extractLsb'_rsv_eq_zero_iff (w : Word) : w.extractLsb' 13 19 = 0 ↔ rsvField w = 0 := by
  have hslice : (w.extractLsb' 13 19).toNat = w.toNat / 8192 % 524288 := by
    simp [BitVec.extractLsb'_toNat, Nat.shiftRight_eq_div_pow]
  have hw : w.toNat < 4294967296 := w.isLt
  simp only [BitVec.toNat_eq, hslice, rsvField, BitVec.reduceToNat]
  omega

/-- The fixed-bit mask of every row of the opcode table keeps `OP` and `RSV` and clears `L` and `MAC`. -/
theorem toNat_and_fixedBits (w : Word) : (w &&& 0xFFFFE00F).toNat = 8192 * rsvField w + opField w := by
  have hlow : (w.toNat &&& 0xFFFFE00F) % 2 ^ 13 = w.toNat % 2 ^ 13 % 2 ^ 4 := by
    rw [Nat.and_mod_two_pow]
    exact Nat.and_two_pow_sub_one_eq_mod _ 4
  have hhigh : (w.toNat &&& 0xFFFFE00F) / 2 ^ 13 = w.toNat / 2 ^ 13 % 2 ^ 19 := by
    rw [Nat.and_div_two_pow]
    exact Nat.and_two_pow_sub_one_eq_mod _ 19
  have hw : w.toNat < 4294967296 := w.isLt
  simp only [BitVec.toNat_and, BitVec.reduceToNat, rsvField, opField]
  omega

/-- The fixed bits of a word are those of the row of `OP` = n exactly when `OP` is n and `RSV` is 0. -/
theorem and_fixedBits_eq_iff {w : Word} {n : Nat} (hn : n < 16) :
    w &&& 0xFFFFE00F = BitVec.ofNat 32 n ↔ rsvField w = 0 ∧ opField w = n := by
  have hop : opField w < 16 := Nat.mod_lt _ (by decide)
  rw [BitVec.toNat_eq, toNat_and_fixedBits, BitVec.toNat_ofNat]
  omega

theorem opcode_mem_rows (i : Instr) : 1 ≤ opcode i ∧ opcode i ≤ 6 := by
  cases i <;> simp [opcode]

/-- Each of the six `OP` values is a command's, with any fields. -/
theorem exists_instr_of_fields {n : Nat} (hlow : 1 ≤ n) (hhigh : n ≤ 6) (l mac : Nat) :
    ∃ i : Instr, opcode i = n ∧ i.lField = l ∧ i.macField = mac := by
  obtain rfl | rfl | rfl | rfl | rfl | rfl : n = 1 ∨ n = 2 ∨ n = 3 ∨ n = 4 ∨ n = 5 ∨ n = 6 := by omega
  · exact ⟨.init l mac, rfl, rfl, rfl⟩
  · exact ⟨.ccmsEnc l mac, rfl, rfl, rfl⟩
  · exact ⟨.ccmsDec l mac, rfl, rfl, rfl⟩
  · exact ⟨.cbcEncRaw l mac, rfl, rfl, rfl⟩
  · exact ⟨.ctrEncRaw l mac, rfl, rfl, rfl⟩
  · exact ⟨.ecbEnc l mac, rfl, rfl, rfl⟩

/-- A word decodes to a command exactly when `RSV` is 0 and the other three fields are the command's. -/
theorem decode_eq_command_iff (w : Word) (i : Instr) : decode w = .command i ↔
    rsvField w = 0 ∧ opField w = opcode i ∧ i.lField = lFieldOf w ∧ i.macField = macFieldOf w := by
  constructor
  · intro h
    unfold decode at h
    split at h
    case isTrue => exact absurd h (by simp)
    case isFalse hrsv =>
      have hrsv : rsvField w = 0 := not_not.mp hrsv
      split at h
      case h_7 => exact absurd h (by simp)
      all_goals
        next hop =>
          obtain rfl := Decoded.command.inj h
          exact ⟨hrsv, hop, rfl, rfl⟩
  · rintro ⟨hrsv, hop, hl, hmac⟩
    cases i <;> simp_all [decode, opcode, Instr.lField, Instr.macField]

/-- The words that are commands: `RSV` is 0 and `OP` has a row (R92, R98). -/
theorem exists_command_iff (w : Word) :
    (∃ i, decode w = .command i) ↔ rsvField w = 0 ∧ 1 ≤ opField w ∧ opField w ≤ 6 := by
  constructor
  · rintro ⟨i, hi⟩
    obtain ⟨hrsv, hop, _, _⟩ := (decode_eq_command_iff w i).mp hi
    exact ⟨hrsv, hop ▸ opcode_mem_rows i⟩
  · rintro ⟨hrsv, hlow, hhigh⟩
    obtain ⟨i, hop, hl, hmac⟩ := exists_instr_of_fields hlow hhigh (lFieldOf w) (macFieldOf w)
    exact ⟨i, (decode_eq_command_iff w i).mpr ⟨hrsv, hop.symm, hl, hmac⟩⟩

/-- Each word has one reading: it is reserved exactly when it is no command (R98). -/
theorem exists_reserved_iff_not_command (w : Word) :
    (∃ why, decode w = .reserved why) ↔ ¬ ∃ i, decode w = .command i := by
  cases decode w with
  | command i => simp
  | reserved why => simp

/-- The reserved words of R97, told by their bits. -/
theorem exists_reserved_iff (w : Word) : (∃ why, decode w = .reserved why) ↔
    ((w.extractLsb' 0 4).toNat = 0 ∨ 7 ≤ (w.extractLsb' 0 4).toNat ∨ w.extractLsb' 13 19 ≠ 0) := by
  rw [exists_reserved_iff_not_command, exists_command_iff, extractLsb'_op_toNat, ne_eq, extractLsb'_rsv_eq_zero_iff]
  omega

/-- Settles O3: a command's fixed bits and fields by `decode_eq_command_iff`, the commands and the reserved words by
`exists_command_iff`. -/
theorem decodeAgreesWithOpcodeTable : Obligations.DecodeAgreesWithOpcodeTable := by
  refine ⟨?fields, ?rows, exists_reserved_iff⟩
  case fields =>
    intro w i h
    obtain ⟨hrsv, hop, hl, hmac⟩ := (decode_eq_command_iff w i).mp h
    have hrow : opcode i < 16 := (opcode_mem_rows i).2.trans_lt (by decide)
    rw [extractLsb'_l_toNat, extractLsb'_mac_toNat]
    exact ⟨(and_fixedBits_eq_iff hrow).mpr ⟨hrsv, hop⟩, hl, hmac⟩
  case rows =>
    intro w n hlow hhigh hbits
    obtain ⟨hrsv, rfl⟩ := (and_fixedBits_eq_iff (by omega)).mp hbits
    obtain ⟨i, hi⟩ := (exists_command_iff w).mpr ⟨hrsv, hlow, hhigh⟩
    obtain ⟨_, hop, _, _⟩ := (decode_eq_command_iff w i).mp hi
    exact ⟨i, hi, hop.symm⟩

end Sys2Proof

/-! What a `CMD` write of a reserved word does (spec/30_encoding.md R97). -/

namespace Sys2Proof.Machine

/-- With no fault recorded, a step whose next access is a `CMD` write issues that word, however it ends (R73, R230). -/
theorem step_of_cmd_pending {s : State} {w : Word} {rest : List HostOp} (hfaulted : s.faulted = none)
    (hpending : s.pending = hostWr .cmd w :: rest) : step s = issueCommand w (s.setPending rest) := by
  rw [← hostAccess_hostWr_cmd]
  simp only [step, hfaulted, hpending]

/-- A reserved word ends with `InvalidParameter`: no check comes before it (R97, R230). -/
theorem issueCommand_of_reserved {w : Word} {why : ReservedReason} (hw : decode w = .reserved why) (s : State) :
    issueCommand w s = .next (s.setStatus .invalidParameter) := by
  simp only [issueCommand, hw, finish]

/-- `CODE` is the low three bits of `STATUS`, whatever `INIT_DONE` is (R33). -/
theorem statusWord_code (initialized : Bool) (c : StatusCode) :
    (statusWord initialized c).extractLsb' 0 3 = c.value.setWidth 3 := by
  cases initialized <;> cases c <;> rfl

/-- Settles O6: the words of R97 are the reserved ones by `exists_reserved_iff`, and every other is a command. -/
theorem reservedWordReportsInvalidParameter : Obligations.ReservedWordReportsInvalidParameter := by
  intro w
  split
  case isTrue hreserved =>
    intro s rest hfaulted hpending
    obtain ⟨why, hw⟩ := (exists_reserved_iff w).mpr hreserved
    constructor
    · rw [step_of_cmd_pending hfaulted hpending, issueCommand_of_reserved hw]
    · exact statusWord_code _ .invalidParameter
  case isFalse hcommand =>
    rw [← exists_reserved_iff, exists_reserved_iff_not_command] at hcommand
    exact not_not.mp hcommand

end Sys2Proof.Machine

/-! The block cipher's tables and key schedule (spec/40_block_cipher.md R122, R129). -/

namespace Sys2Proof.Machine

/-! ### The key expansion -/

/-- The words w[0..3+n] of the key expansion: its first n extensions of the key's own four words (R129). -/
def keyWords (K : Octets) : Nat → List Octets
  | 0 => (List.range 4).map fun i => (K.drop (4 * i)).take 4
  | n + 1 => keyWords K n ++ [nextKeyWord (keyWords K n) (4 + n)]

theorem keyWords_eq_foldl (K : Octets) (n : Nat) : keyWords K n =
    (List.range' 4 n).foldl (fun ws i => ws ++ [nextKeyWord ws i])
      ((List.range 4).map fun i => (K.drop (4 * i)).take 4) := by
  induction n with
  | zero => rfl
  | succ n ih => rw [keyWords, ih, List.range'_1_concat, List.foldl_concat]

theorem keyExpansion_eq_keyWords (K : Octets) : keyExpansion K = keyWords K 40 := (keyWords_eq_foldl K 40).symm

@[simp] theorem keyWords_length (K : Octets) (n : Nat) : (keyWords K n).length = 4 + n := by
  induction n with
  | zero => simp [keyWords]
  | succ n ih => simp [keyWords, ih, Nat.add_assoc]

theorem keyWords_prefix (K : Octets) {m n : Nat} (hmn : m ≤ n) : keyWords K m <+: keyWords K n := by
  induction n, hmn using Nat.le_induction with
  | base => exact List.prefix_rfl
  | succ n _ ih => exact ih.trans (List.prefix_append _ _)

/-- A word, once appended, stays as it is. -/
theorem keyExpansion_getD_eq_keyWords (K : Octets) {i n : Nat} (hn : n ≤ 40) (hi : i < 4 + n) :
    (keyExpansion K).getD i [] = (keyWords K n).getD i [] := by
  obtain ⟨later, hlater⟩ := keyWords_prefix K hn
  rw [keyExpansion_eq_keyWords, ← hlater, List.getD_append _ _ _ _ (by simpa using hi)]

/-- The first four words are the key's (R129). -/
theorem keyExpansion_getD_of_lt_four (K : Octets) {i : Nat} (hi : i < 4) :
    (keyExpansion K).getD i [] = (K.drop (4 * i)).take 4 := by
  rw [keyExpansion_getD_eq_keyWords K (Nat.zero_le 40) hi]
  simp [keyWords, hi]

/-- `nextKeyWord` looks at the words i - 1 and i - 4 alone. -/
theorem nextKeyWord_congr {ws ws' : List Octets} {i : Nat} (h1 : ws.getD (i - 1) [] = ws'.getD (i - 1) [])
    (h4 : ws.getD (i - 4) [] = ws'.getD (i - 4) []) : nextKeyWord ws i = nextKeyWord ws' i := by
  simp only [nextKeyWord, h1, h4]

/-- Each later word is `nextKeyWord` of the whole expansion: the recurrence of R129. -/
theorem keyExpansion_getD_of_four_le (K : Octets) {i : Nat} (hlow : 4 ≤ i) (hhigh : i < 44) :
    (keyExpansion K).getD i [] = nextKeyWord (keyExpansion K) i := by
  obtain ⟨n, rfl⟩ := Nat.exists_eq_add_of_le hlow
  calc (keyExpansion K).getD (4 + n) []
      = (keyWords K (n + 1)).getD (4 + n) [] := keyExpansion_getD_eq_keyWords K (by omega) (by omega)
    _ = nextKeyWord (keyWords K n) (4 + n) := by simp [keyWords]
    _ = nextKeyWord (keyExpansion K) (4 + n) :=
      nextKeyWord_congr (keyExpansion_getD_eq_keyWords K (by omega) (by omega)).symm
        (keyExpansion_getD_eq_keyWords K (by omega) (by omega)).symm

/-- A round key is four consecutive words (R129). -/
theorem roundKey_eq_append {ws : List Octets} {j : Nat} (hj : 4 * j + 3 < ws.length) :
    roundKey ws j = ws.getD (4 * j) [] ++ ws.getD (4 * j + 1) [] ++ ws.getD (4 * j + 2) [] ++
      ws.getD (4 * j + 3) [] := by
  have hcons : ∀ k, k < ws.length → ws.drop k = ws.getD k [] :: ws.drop (k + 1) := fun k hk => by
    rw [List.drop_eq_getElem_cons hk, List.getD_eq_getElem _ _ hk]
  rw [roundKey, hcons _ (by omega), hcons _ (by omega), hcons _ (by omega), hcons _ hj]
  simp

/-- A 16-octet string is its four words in order. -/
theorem append_four_words {K : Octets} (hK : K.length = 16) :
    K.take 4 ++ (K.drop 4).take 4 ++ (K.drop 8).take 4 ++ (K.drop 12).take 4 = K := by
  rw [← List.take_add, ← List.take_add, ← List.take_add, List.take_of_length_le hK.le]

/-- Round key 0 is the key (R129). -/
theorem roundKey_keyExpansion_zero {K : Octets} (hK : K.length = 16) : roundKey (keyExpansion K) 0 = K := by
  rw [roundKey_eq_append (by rw [(keyExpansion_words K hK).2]; decide)]
  simpa only [Nat.mul_zero, Nat.zero_add, keyExpansion_getD_of_lt_four, Nat.reduceLT, Nat.reduceMul, List.drop_zero]
    using append_four_words hK

/-- The words w[4] and w[43] of the FIPS-197 key (R129). -/
theorem keyExpansion_fips197 :
    (keyExpansion (bigEndian 16 0x2b7e151628aed2a6abf7158809cf4f3c)).getD 4 [] = bigEndian 4 0xa0fafe17 ∧
    (keyExpansion (bigEndian 16 0x2b7e151628aed2a6abf7158809cf4f3c)).getD 43 [] = bigEndian 4 0xb6630ca6 := by
  decide +kernel

/-- Settles O25: each word is read off the shortest `keyWords` that has it, which is a prefix of the expansion. -/
theorem keyExpansionFollowsItsRecurrence : Obligations.KeyExpansionFollowsItsRecurrence := by
  refine ⟨fun _ _ _ _ => ⟨rfl, rfl⟩, keyExpansion_fips197, fun K hK => ?_⟩
  obtain ⟨hwords, hcount⟩ := keyExpansion_words K hK
  refine ⟨hcount, hwords, fun i => keyExpansion_getD_of_lt_four K, fun i => keyExpansion_getD_of_four_le K,
    fun j hj => roundKey_eq_append ?_, roundKey_keyExpansion_zero hK⟩
  omega

/-! ### The S-box -/

/-- R122, second step: the affine map, with the index shifts written as rotations of the whole octet. -/
def sboxAffine (t : Octet) : Octet :=
  t ^^^ t.rotateRight 4 ^^^ t.rotateRight 5 ^^^ t.rotateRight 6 ^^^ t.rotateRight 7 ^^^ 0x63

/-- The affine map that undoes R122's second step: from an entry of the table back to the octet t of the first step. -/
def sboxAffineInverse (c : Octet) : Octet :=
  c.rotateRight 2 ^^^ c.rotateRight 5 ^^^ c.rotateRight 7 ^^^ 0x05

/-- Bit i of an octet rotated right by k is its bit i + k, modulo 8. -/
theorem getLsbD_rotateRight_octet (t : Octet) {i k : Nat} (hi : i < 8) (hk : k < 8) :
    (t.rotateRight k).getLsbD i = t.getLsbD ((i + k) % 8) := by
  rw [BitVec.getLsbD_rotateRight, Nat.mod_eq_of_lt hk, Bool.cond_decide]
  split
  case isTrue hlow => rw [Nat.mod_eq_of_lt (by omega), Nat.add_comm]
  case isFalse hwrap =>
    rw [decide_eq_true hi, Bool.true_and]
    congr 1
    omega

/-- `sboxAffine` is R122's formula, bit by bit. -/
theorem getLsbD_sboxAffine (t : Octet) {i : Nat} (hi : i < 8) : (sboxAffine t).getLsbD i =
    (t.getLsbD i ^^ t.getLsbD ((i + 4) % 8) ^^ t.getLsbD ((i + 5) % 8) ^^ t.getLsbD ((i + 6) % 8) ^^
      t.getLsbD ((i + 7) % 8) ^^ (0x63 : Octet).getLsbD i) := by
  simp only [sboxAffine, BitVec.getLsbD_xor, getLsbD_rotateRight_octet t hi, Nat.reduceLT, Bool.xor_assoc]

theorem getLsbD_sboxAffineInverse (c : Octet) {i : Nat} (hi : i < 8) : (sboxAffineInverse c).getLsbD i =
    (c.getLsbD ((i + 2) % 8) ^^ c.getLsbD ((i + 5) % 8) ^^ c.getLsbD ((i + 7) % 8) ^^ (0x05 : Octet).getLsbD i) := by
  simp only [sboxAffineInverse, BitVec.getLsbD_xor, getLsbD_rotateRight_octet c hi, Nat.reduceLT, Bool.xor_assoc]

/-- In bit i of the composite every bit of c but bit i stands twice, and the two constants cancel. -/
theorem sboxAffine_sboxAffineInverse (c : Octet) : sboxAffine (sboxAffineInverse c) = c := by
  refine BitVec.eq_of_getLsbD_eq fun i hi => ?_
  have hmod : ∀ k, (i + k) % 8 < 8 := fun k => Nat.mod_lt _ (by decide)
  rw [getLsbD_sboxAffine _ hi]
  simp only [getLsbD_sboxAffineInverse, hi, hmod, Nat.mod_add_mod, Nat.add_assoc, Nat.reduceAdd]
  generalize c.getLsbD = bit
  interval_cases i <;> simp [Bool.xor_left_comm, Bool.xor_comm]

/-- The table inverts in GF(2^8): undoing the affine map on the entry for b leaves the inverse of b (R122). -/
theorem gfMul_sboxAffineInverse_sbox : ∀ b : Octet, b ≠ 0 → gfMul b (sboxAffineInverse (sbox b)) = 1 := by
  decide +kernel

theorem sboxAffineInverse_sbox_zero : sboxAffineInverse (sbox 0) = 0 := by decide

/-- Settles O24: t is the table's entry with the affine map undone. That t is the inverse of b is checked entry by
entry, the affine half holds of every octet. -/
theorem sboxTableMatchesDefinition : Obligations.SboxTableMatchesDefinition := by
  intro b
  refine ⟨sboxAffineInverse (sbox b), gfMul_sboxAffineInverse_sbox b, ?zero, ?bits⟩
  case zero =>
    rintro rfl
    exact sboxAffineInverse_sbox_zero
  case bits =>
    intro i hi
    rw [← getLsbD_sboxAffine _ hi, sboxAffine_sboxAffineInverse]

end Sys2Proof.Machine

/-! What the block modes compute (spec/41_block_modes.md R161, R162): strings cut into 16-octet blocks, the recurrence
of the CBC chain, and the keystream octet by octet. -/

namespace Sys2Proof.Machine

/-! ### Joined 16-octet blocks -/

/-- Cutting 16 i octets off joined blocks cuts off i blocks. -/
theorem drop_flatten_of_blocks (l : List Octets) (hl : ∀ w ∈ l, w.length = 16) (i : Nat) :
    l.flatten.drop (16 * i) = (l.drop i).flatten := by
  induction i generalizing l with
  | zero => rfl
  | succ i ih =>
    cases l with
    | nil => simp
    | cons w l =>
      have hw : w.length = 16 := hl w List.mem_cons_self
      calc (w ++ l.flatten).drop (16 * (i + 1))
          = (w ++ l.flatten).drop (w.length + 16 * i) := by rw [hw, Nat.mul_succ, Nat.add_comm]
        _ = l.flatten.drop (16 * i) := List.drop_length_add_append _
        _ = (l.drop i).flatten := ih l fun v hv => hl v (List.mem_cons_of_mem w hv)

/-- Segment i of joined blocks is block i, both empty past the end. -/
theorem take_drop_flatten_of_blocks {l : List Octets} (hl : ∀ w ∈ l, w.length = 16) (i : Nat) :
    (l.flatten.drop (16 * i)).take 16 = l.getD i [] := by
  rw [drop_flatten_of_blocks l hl]
  obtain hi | hi := Nat.lt_or_ge i l.length
  · have hw : l[i].length = 16 := hl _ (List.getElem_mem hi)
    rw [List.drop_eq_getElem_cons hi, List.getD_eq_getElem _ _ hi, List.flatten_cons, ← hw, List.take_left]
  · rw [List.drop_eq_nil_of_le hi, List.getD_eq_default _ _ hi]
    rfl

/-- Octet i of joined blocks is octet i mod 16 of block i div 16. -/
theorem getD_flatten_of_blocks {l : List Octets} (hl : ∀ w ∈ l, w.length = 16) (i : Nat) :
    l.flatten.getD i 0 = (l.getD (i / 16) []).getD (i % 16) 0 := by
  have hoffset : i % 16 < 16 := Nat.mod_lt _ (by decide)
  simp only [← take_drop_flatten_of_blocks hl, List.getD_eq_getElem?_getD, List.getElem?_take_of_lt hoffset,
    List.getElem?_drop, Nat.div_add_mod]

/-- `blocks` cuts a string into its 16-octet segments (R13). -/
theorem getD_blocks {X : Octets} {i : Nat} (hi : i < X.length / 16) :
    (blocks X).getD i [] = (X.drop (16 * i)).take 16 := by
  simp [blocks, hi]

/-! ### The CBC chain -/

/-- Each chaining value comes from the one before it in the list that the first input `Y` heads (R161). -/
theorem getD_cbcBlocks (K : Octets) (Xs : List Octets) (Y : Octets) {i : Nat} (hi : i < Xs.length) :
    (cbcBlocks K Y Xs).getD i [] =
      aes128 K (xorOctets ((Y :: cbcBlocks K Y Xs).getD i []) (Xs.getD i [])) := by
  induction Xs generalizing Y i with
  | nil => exact absurd hi (Nat.not_lt_zero i)
  | cons X Xs ih =>
    cases i with
    | zero => rfl
    | succ i => exact ih (aes128 K (xorOctets Y X)) (Nat.lt_of_succ_lt_succ hi)

/-- Segment i of `CBCCHAIN` is chaining value i (R161). -/
theorem take_drop_cbcChain (K X : Octets) (hK : K.length = 16) (i : Nat) :
    ((cbcChain K X).drop (16 * i)).take 16 = (cbcBlocks K (zeros 16) (blocks X)).getD i [] :=
  take_drop_flatten_of_blocks (cbcBlocks_lengths K hK (blocks X) (zeros 16)).2 i

/-- The recurrence of R161, on the segments of the chain and of the message. -/
theorem cbcChain_recurrence (K X : Octets) (hK : K.length = 16) {i : Nat} (hi : i < X.length / 16) :
    ((cbcChain K X).drop (16 * i)).take 16 =
      aes128 K (xorOctets (if i = 0 then zeros 16 else ((cbcChain K X).drop (16 * (i - 1))).take 16)
        ((X.drop (16 * i)).take 16)) := by
  rw [take_drop_cbcChain K X hK, getD_cbcBlocks K _ _ (by simpa using hi), getD_blocks hi]
  cases i with
  | zero => rfl
  | succ i =>
    rw [if_neg (Nat.succ_ne_zero i), Nat.add_sub_cancel, take_drop_cbcChain K X hK]
    rfl

/-- `CBCMAC` is the last block of the chain (R161). -/
theorem cbcMac_eq_drop_cbcChain (K X : Octets) (hK : K.length = 16) (hX : 0 < X.length / 16) :
    cbcMac K X = (cbcChain K X).drop (16 * (X.length / 16 - 1)) := by
  obtain ⟨hcount, hblocks⟩ := cbcBlocks_lengths K hK (blocks X) (zeros 16)
  rw [blocks_length] at hcount
  have hne : cbcBlocks K (zeros 16) (blocks X) ≠ [] := List.ne_nil_of_length_pos (hcount ▸ hX)
  rw [cbcChain, drop_flatten_of_blocks _ hblocks, ← hcount, List.drop_length_sub_one hne, List.flatten_singleton,
    cbcMac, List.getLastD_eq_getLast?, List.getLast?_eq_some_getLast hne, Option.getD_some]

/-- Settles O18: the segments of the chain are the chaining values, which obey the recurrence by definition. -/
theorem cbcChainFollowsItsRecurrence : Obligations.CbcChainFollowsItsRecurrence := by
  intro K X n hK hX
  obtain rfl : n = X.length / 16 := by omega
  exact ⟨cbcChain_length K X hK, fun i => cbcChain_recurrence K X hK, cbcMac_eq_drop_cbcChain K X hK⟩

/-! ### The CTR keystream -/

theorem getD_xorOctets {a b : Octets} {i : Nat} (ha : i < a.length) (hb : i < b.length) :
    (xorOctets a b).getD i 0 = a.getD i 0 ^^^ b.getD i 0 := by
  simp [xorOctets, ha, hb]

theorem getD_trunc (b : Octets) {i n : Nat} (hi : i < n) : (trunc b n).getD i 0 = b.getD i 0 := by
  simp only [trunc, List.getD_eq_getElem?_getD, List.getElem?_take_of_lt hi]

/-- The repetition that starts with an application is the one that ends with it. -/
theorem natRepeat_apply {α : Type} (f : α → α) (n : Nat) (a : α) : Nat.repeat f n (f a) = f (Nat.repeat f n a) := by
  induction n with
  | zero => rfl
  | succ n ih => exact congrArg f ih

/-- Counter block j is the starting block incremented j times (R162). -/
theorem getD_counterBlocks (W q : Nat) (A : Octets) {j : Nat} (hj : j < q) :
    (counterBlocks W A q).getD j [] = Nat.repeat (incCounter W) j A := by
  induction q generalizing A j with
  | zero => exact absurd hj (Nat.not_lt_zero j)
  | succ q ih =>
    cases j with
    | zero => rfl
    | succ j => exact (ih (incCounter W A) (Nat.lt_of_succ_lt_succ hj)).trans (natRepeat_apply _ j A)

/-- Octet i of the keystream is octet i mod 16 of its block i div 16 (R162). -/
theorem getD_keystream (K A : Octets) (W : Nat) (hK : K.length = 16) {i q : Nat} (hi : i / 16 < q) :
    (keystream K A W q).getD i 0 =
      (aes128 K (Nat.repeat (incCounter W) (i / 16) A)).getD (i % 16) 0 := by
  have hblocks : ∀ S ∈ (counterBlocks W A q).map (aes128 K), S.length = 16 := by
    intro S hS
    obtain ⟨B, _, rfl⟩ := List.mem_map.mp hS
    exact aes128_length K B hK
  have hblock : ((counterBlocks W A q).map (aes128 K)).getD (i / 16) [] =
      aes128 K ((counterBlocks W A q).getD (i / 16) []) := by
    simp [hi]
  rw [keystream, List.flatMap_def, getD_flatten_of_blocks hblocks, hblock, getD_counterBlocks W q A hi]

/-- Settles O20: the keystream is long enough for every octet of D, so no octet is cut off. -/
theorem ctrOctetFormula : Obligations.CtrOctetFormula := by
  intro K A D W hK _ _ _
  refine ⟨ctr_length K A W D hK, fun i hi => ?_⟩
  have hblock : i / 16 < keystreamBlocks D.length := by
    rw [keystreamBlocks]
    omega
  have hlong : i < (trunc (keystream K A W (keystreamBlocks D.length)) D.length).length := by
    rw [trunc_length, keystream_length K A W _ hK]
    omega
  rw [ctr, getD_xorOctets hi hlong, getD_trunc _ hi, getD_keystream K A W hK hblock]

end Sys2Proof.Machine

/-! What CCM* authenticates (spec/42_ccm_star.md R193 to R196): the fields of the flags octet of B_0, and the
authentication input as a number of whole blocks. -/

namespace Sys2Proof.Machine

/-! ### The flags octet -/

theorem adataBit_lt_two (la : Nat) : adataBit la < 2 := by
  unfold adataBit
  split <;> decide

/-- M' fits its three bits for every tag length of at most a block (R193). -/
theorem tagField_lt_eight {M : Nat} (hM : M ≤ 16) : tagField M < 8 := by
  unfold tagField
  split <;> omega

/-- The three fields of the flags octet do not overlap, so it is their sum at their places (R193). -/
theorem flagsB0_toNat (la : Nat) {L M : Nat} (hL : L ≤ 8) (hM : M ≤ 16) :
    (flagsB0 la L M).toNat = 64 * adataBit la + 8 * tagField M + (L - 1) := by
  have hadata := adataBit_lt_two la
  have htag := tagField_lt_eight hM
  have hlow : tagField M <<< 3 ||| (L - 1) = 8 * tagField M + (L - 1) := by
    rw [← Nat.shiftLeft_add_eq_or_of_lt (by omega), Nat.shiftLeft_eq, Nat.mul_comm]
  have hall : adataBit la <<< 6 ||| (8 * tagField M + (L - 1)) = 64 * adataBit la + (8 * tagField M + (L - 1)) := by
    rw [← Nat.shiftLeft_add_eq_or_of_lt (by omega), Nat.shiftLeft_eq, Nat.mul_comm]
  rw [flagsB0, Nat.or_assoc, hlow, hall, BitVec.toNat_ofNat]
  omega

/-- A slice of the flags octet, read off the sum of its fields. -/
theorem extractLsb'_flagsB0_toNat (start width la : Nat) {L M : Nat} (hL : L ≤ 8) (hM : M ≤ 16) :
    ((flagsB0 la L M).extractLsb' start width).toNat =
      (64 * adataBit la + 8 * tagField M + (L - 1)) / 2 ^ start % 2 ^ width := by
  rw [BitVec.extractLsb'_toNat, Nat.shiftRight_eq_div_pow, flagsB0_toNat la hL hM]

/-- Bit 7 is clear: the fields fill the seven bits below it (R193). -/
theorem getLsbD_flagsB0_seven (la : Nat) {L M : Nat} (hL : L ≤ 8) (hM : M ≤ 16) :
    (flagsB0 la L M).getLsbD 7 = false := by
  have hadata := adataBit_lt_two la
  have htag := tagField_lt_eight hM
  rw [BitVec.getLsbD]
  apply Nat.testBit_lt_two_pow
  rw [flagsB0_toNat la hL hM]
  omega

/-- Settles O27: each slice is one field of the sum `flagsB0_toNat`. The flags octet depends on the length of the
associated data through `Adata` alone, which leaves closed values in the examples. -/
theorem headerFlagsLayout : Obligations.HeaderFlagsLayout := by
  refine ⟨fun la L M _ hL hmac => ?layout, rfl, fun la hla => ?examples⟩
  case layout =>
    have hM : M ≤ 16 := by omega
    have hadata := adataBit_lt_two la
    have htag := tagField_lt_eight hM
    refine ⟨getLsbD_flagsB0_seven la hL hM, ?adata, ?tag, ?lField⟩
    case adata =>
      rw [extractLsb'_flagsB0_toNat 6 1 la hL hM]
      change _ = adataBit la
      omega
    case tag =>
      rw [extractLsb'_flagsB0_toNat 3 3 la hL hM]
      change _ = tagField M
      omega
    case lField =>
      rw [extractLsb'_flagsB0_toNat 0 3 la hL hM]
      omega
  case examples =>
    have hadata : adataBit la = 1 := if_pos hla
    simp only [flagsB0, hadata]
    decide

/-! ### The authentication input -/

theorem pad16_length_mod (b : Octets) : (pad16 b).length % 16 = 0 := by
  rw [pad16_length, Nat.mul_mod_left]

/-- The flags octet, the nonce and the message length make one block (R194). -/
theorem headerBlock_length {N : Octets} {L : Nat} (M la lm : Nat) (hL : L ≤ 15) (hN : N.length = 15 - L) :
    (headerBlock N L M la lm).length = 16 := by
  rw [headerBlock, List.length_cons, List.length_append, bigEndian_length, hN, Nat.sub_add_cancel hL]

/-- The associated data take whole blocks, none when they are empty (R195). -/
theorem associatedBlocks_length_mod (a : Octets) : (associatedBlocks a).length % 16 = 0 := by
  unfold associatedBlocks
  split
  · rfl
  · exact pad16_length_mod _

/-- The length of the authentication input is the sum of its parts' lengths, the header's being 16 (R196). -/
theorem authInput_length {N : Octets} {L : Nat} (M : Nat) (a m : Octets) (hL : L ≤ 15) (hN : N.length = 15 - L) :
    (authInput N L M a m).length = 16 + (associatedBlocks a).length + (pad16 m).length := by
  rw [authInput, List.length_append, List.length_append, headerBlock_length M _ _ hL hN]

/-- An empty message adds no block (R196). -/
theorem authInput_nil (N : Octets) (L M : Nat) (a : Octets) :
    authInput N L M a [] = headerBlock N L M a.length 0 ++ associatedBlocks a := by
  rw [authInput, pad16_nil, List.append_nil, List.length_nil]

/-- Settles O28: the header is one block, which makes the length positive, and the other two parts are whole blocks. -/
theorem authInputIsWholeBlocks : Obligations.AuthInputIsWholeBlocks := by
  intro N a m L M _ hL hN
  have hL15 : L ≤ 15 := by omega
  have hlen := authInput_length M a m hL15 hN
  have hadb := associatedBlocks_length_mod a
  have hpad := pad16_length_mod m
  exact ⟨rfl, headerBlock_length M _ _ hL15 hN, by omega, by omega, authInput_nil N L M a⟩

end Sys2Proof.Machine

/-! The round trip between commands and their words (spec/30_encoding.md R90, R99): the fields of an encoded command,
read off the sum of the fields at their places. -/

namespace Sys2Proof

theorem lFieldOf_lt (w : Word) : lFieldOf w < 16 := Nat.mod_lt _ (by decide)

theorem macFieldOf_lt (w : Word) : macFieldOf w < 32 := Nat.mod_lt _ (by decide)

theorem opcode_lt (i : Instr) : opcode i < 16 := (opcode_mem_rows i).2.trans_lt (by decide)

theorem wellFormed_iff (i : Instr) : i.wellFormed = true ↔ i.lField < 16 ∧ i.macField < 32 := by
  simp only [Instr.wellFormed, lFits, macFits, Bool.and_eq_true, decide_eq_true_eq]

/-- The fields of a command's word do not overlap, so it is their sum at their places (R90). -/
theorem encode_toNat {i : Instr} (h : i.wellFormed = true) :
    (encode i).toNat = opcode i + 16 * i.lField + 256 * i.macField := by
  obtain ⟨hl, hmac⟩ := (wellFormed_iff i).mp h
  have hop := opcode_lt i
  have hlow : opcode i ||| i.lField <<< 4 = 16 * i.lField + opcode i := by
    rw [Nat.or_comm, ← Nat.shiftLeft_add_eq_or_of_lt (by omega), Nat.shiftLeft_eq, Nat.mul_comm]
  have hall : 16 * i.lField + opcode i ||| i.macField <<< 8 = 256 * i.macField + (16 * i.lField + opcode i) := by
    rw [Nat.or_comm, ← Nat.shiftLeft_add_eq_or_of_lt (by omega), Nat.shiftLeft_eq, Nat.mul_comm]
  rw [encode, BitVec.toNat_ofNat, hlow, hall]
  omega

/-- A word is its four fields at their places (R90). -/
theorem toNat_eq_fields (w : Word) :
    w.toNat = opField w + 16 * lFieldOf w + 256 * macFieldOf w + 8192 * rsvField w := by
  simp only [opField, lFieldOf, macFieldOf, rsvField]
  omega

/-- Settles O1: dividing the sum of `encode_toNat` gives each field back. -/
theorem decodeOfEncodeIsIdentity : Obligations.DecodeOfEncodeIsIdentity := by
  intro i h
  obtain ⟨hl, hmac⟩ := (wellFormed_iff i).mp h
  have hop := opcode_lt i
  rw [decode_eq_command_iff]
  simp only [rsvField, opField, lFieldOf, macFieldOf, encode_toNat h]
  omega

/-- Settles O2: the fields of a word are in range, and the word is their sum when `RSV` is 0. -/
theorem encodeOfDecodeIsIdentity : Obligations.EncodeOfDecodeIsIdentity := by
  intro w i h
  obtain ⟨hrsv, hop, hl, hmac⟩ := (decode_eq_command_iff w i).mp h
  have hwf : i.wellFormed = true := (wellFormed_iff i).mpr ⟨hl ▸ lFieldOf_lt w, hmac ▸ macFieldOf_lt w⟩
  refine ⟨hwf, BitVec.eq_of_toNat_eq ?_⟩
  rw [encode_toNat hwf, toNat_eq_fields w, hrsv, hop, hl, hmac]
  rfl

/-- Settles O4: twelve closed words. -/
theorem decodeReadsTheExampleWords : Obligations.DecodeReadsTheExampleWords := by
  unfold Obligations.DecodeReadsTheExampleWords
  decide

end Sys2Proof

/-! Every command in one shape (spec/43_engine_contract.md R230, spec/60_exceptions.md R265): the order check, the
parameter and length checks, the region checks, the pure function on the operands, and the end of the command. The
lemmas here say how `exec` behaves in each case and what a completing command can have done. -/

namespace Sys2Proof.Machine

/-! ### Commands by their opcode -/

theorem eq_init_of_opcode {i : Instr} (h : opcode i = 1) : ∃ l mac, i = .init l mac := by
  cases i <;> simp_all [opcode]

theorem eq_ccmsDec_of_opcode {i : Instr} (h : opcode i = 3) : ∃ L M, i = .ccmsDec L M := by
  cases i <;> simp_all [opcode]

theorem eq_ctrEncRaw_of_opcode {i : Instr} (h : opcode i = 5) : ∃ l mac, i = .ctrEncRaw l mac := by
  cases i <;> simp_all [opcode]

/-! ### The parameter and length checks -/

/-- The code with which a command rejects its parameters or lengths, if it does (R261, R262, R265). -/
def rejection (i : Instr) (s : State) : Option StatusCode :=
  match i with
  | .init _ _ => none
  | .ccmsEnc L M =>
    if !ccmParametersOk L M then some .invalidParameter
    else if !ccmEncLengthsOk s.lenA.toNat s.lenM.toNat M then some .invalidLength else none
  | .ccmsDec L M =>
    if !ccmParametersOk L M then some .invalidParameter
    else if !ccmDecLengthsOk s.lenA.toNat s.lenM.toNat M then some .invalidLength else none
  | .cbcEncRaw _ _ => if !cbcLengthOk s.lenM.toNat then some .invalidLength else none
  | .ctrEncRaw _ _ => if !ctrLengthOk s.lenM.toNat then some .invalidLength else none
  | .ecbEnc _ _ => if !ecbLengthOk s.lenM.toNat then some .invalidLength else none

/-- A command is rejected exactly when its arguments are not in order. -/
theorem rejection_eq_none_iff (i : Instr) (s : State) : rejection i s = none ↔ argumentsOk i s = true := by
  cases i with
  | init l mac => simp [rejection, argumentsOk]
  | ccmsEnc L M | ccmsDec L M =>
    simp only [rejection, argumentsOk]
    split_ifs <;> simp_all
  | cbcEncRaw l mac | ctrEncRaw l mac | ecbEnc l mac => simp [rejection, argumentsOk]

/-- A rejection is reported as one of two codes. -/
theorem rejection_code {i : Instr} {s : State} {c : StatusCode} (h : rejection i s = some c) :
    c = .invalidParameter ∨ c = .invalidLength := by
  cases i with
  | init l mac => exact absurd h (by simp [rejection])
  | _ =>
    simp only [rejection] at h
    split_ifs at h <;> simp_all

/-! ### The pure function and the end of a command -/

/-- The pure function of a command on its operands (R133, R166, R168, R201, R211). `INIT` computes nothing and has no
operands. -/
def commandResult (i : Instr) (s : State) : PureResult :=
  match i with
  | .init _ _ => .ok [] s.lenM.toNat
  | .ccmsEnc L M => ccmsEncResult s L M
  | .ccmsDec L M => ccmsDecResult s L M
  | .cbcEncRaw _ _ => fCbcRaw (readRegion s (keyRegion s)) (readRegion s (messageRegion s s.lenM.toNat))
  | .ctrEncRaw _ _ => fCtrRaw (rawCtrWidth s.platform) (readRegion s (keyRegion s)) (readRegion s (nonceRegion s 16))
      (readRegion s (messageRegion s s.lenM.toNat))
  | .ecbEnc _ _ => fEcb (readRegion s (keyRegion s)) (readRegion s (messageRegion s 16))

/-- The `LEN_M` a successful command leaves (R37). -/
def finalLenM (i : Instr) (s : State) : Nat :=
  match i with
  | .ccmsEnc _ M => s.lenM.toNat + M
  | .ccmsDec _ M => s.lenM.toNat - M
  | .init _ _ | .cbcEncRaw _ _ | .ctrEncRaw _ _ | .ecbEnc _ _ => s.lenM.toNat

/-- How a command with checked operands ends: the result written in place with `Success`, a drawn buffer with
`AuthenticationFailed`, or nothing but a code. -/
def commandEnd (i : Instr) (s : State) : PureResult → StepResult
  | .ok out n => deliverCcm s out n
  | .err .authenticationFailed => finish (scrambleMessage s i.lField) .authenticationFailed
  | .err c => finish s c

/-! The pure functions of the raw commands succeed on checked arguments. -/

theorem readRegion_message_length (s : State) (n : Nat) : (readRegion s (messageRegion s n)).length = n :=
  readRegion_length s _

theorem commandResult_ecbEnc (l mac : Nat) {s : State} (h : s.lenM.toNat = 16) :
    commandResult (.ecbEnc l mac) s =
      .ok (aes128 (readRegion s (keyRegion s)) (readRegion s (messageRegion s 16))) s.lenM.toNat := by
  rw [h]
  exact fEcb_ok _ _ (readRegion_keyRegion_length s) (readRegion_message_length s 16)

theorem commandResult_cbcEncRaw (l mac : Nat) {s : State} (h : cbcLengthOk s.lenM.toNat = true) :
    commandResult (.cbcEncRaw l mac) s =
      .ok (cbcChain (readRegion s (keyRegion s)) (readRegion s (messageRegion s s.lenM.toNat))) s.lenM.toNat := by
  have hB := readRegion_message_length s s.lenM.toNat
  rw [commandResult, fCbcRaw_ok _ _ (readRegion_keyRegion_length s) (by rwa [hB]), hB]

theorem commandResult_ctrEncRaw (l mac : Nat) {s : State} (h : ctrLengthOk s.lenM.toNat = true) :
    commandResult (.ctrEncRaw l mac) s =
      .ok (ctr (readRegion s (keyRegion s)) (readRegion s (nonceRegion s 16)) (rawCtrWidth s.platform)
        (readRegion s (messageRegion s s.lenM.toNat))) s.lenM.toNat := by
  have hD := readRegion_message_length s s.lenM.toNat
  rw [commandResult, fCtrRaw_ok _ _ _ _ (readRegion_keyRegion_length s) (readRegion_length s _) (by rwa [hD]), hD]

/-- The chain of a whole number of blocks is as long as they are (R161). -/
theorem cbcChain_message_length {s : State} (h : cbcLengthOk s.lenM.toNat = true) :
    (cbcChain (readRegion s (keyRegion s)) (readRegion s (messageRegion s s.lenM.toNat))).length = s.lenM.toNat := by
  obtain ⟨_, hblocks, _⟩ := (cbcLengthOk_iff _).mp h
  rw [cbcChain_length _ _ (readRegion_keyRegion_length s), readRegion_message_length]
  exact Nat.mul_div_cancel' (Nat.dvd_of_mod_eq_zero hblocks)

/-- On checked arguments the pure function succeeds and fills the written region, or it is a decryption with a tag and
fails authentication. -/
theorem commandResult_checked {i : Instr} {s : State} (hop : opcode i ≠ 1) (hargs : argumentsOk i s = true) :
    (∃ out, commandResult i s = .ok out (finalLenM i s) ∧ out.length = (writtenRegion i s).len) ∨
      (commandResult i s = .err .authenticationFailed ∧ opcode i = 3 ∧ i.macField ≠ 0) := by
  have hK := readRegion_keyRegion_length s
  cases i with
  | init l mac => exact absurd rfl hop
  | ccmsEnc L M =>
    obtain ⟨hp, hl⟩ := Bool.and_eq_true_iff.mp hargs
    exact .inl (ccmsEncResult_checked s L M hp hl)
  | ccmsDec L M =>
    obtain ⟨hp, hl⟩ := Bool.and_eq_true_iff.mp hargs
    obtain h | ⟨herr, hM⟩ := ccmsDecResult_checked s L M hp hl
    · exact .inl h
    · exact .inr ⟨herr, rfl, hM⟩
  | cbcEncRaw l mac => exact .inl ⟨_, commandResult_cbcEncRaw l mac hargs, cbcChain_message_length hargs⟩
  | ctrEncRaw l mac =>
    exact .inl ⟨_, commandResult_ctrEncRaw l mac hargs, (ctr_length _ _ _ _ hK).trans (readRegion_length s _)⟩
  | ecbEnc l mac =>
    exact .inl ⟨_, commandResult_ecbEnc l mac ((ecbLengthOk_iff _).mp hargs), aes128_length _ _ hK⟩

@[simp] theorem State.setLenM_self (s : State) : s.setLenM s.lenM.toNat = s := by
  simp [State.setLenM]

/-- A raw command ends like the others, its reported length being the `LEN_M` it had. -/
theorem deliverRaw_commandResult {i : Instr} {s : State} (hraw : 4 ≤ opcode i) (hargs : argumentsOk i s = true) :
    deliverRaw s (commandResult i s) = commandEnd i s (commandResult i s) := by
  have hlen : finalLenM i s = s.lenM.toNat := by
    cases i with
    | ccmsEnc _ _ | ccmsDec _ _ => simp [opcode] at hraw
    | _ => rfl
  obtain ⟨out, hok, _⟩ | ⟨_, hdec, _⟩ := commandResult_checked (by omega) hargs
  · rw [hok, hlen]
    exact congrArg (finish · .success) (State.setLenM_self (storeMessage s out)).symm
  · omega

/-! ### What `exec` does in each case -/

theorem exec_init_of_fresh (l mac : Nat) {s : State} (h : s.initialized = false) :
    exec (.init l mac) s = .next (s.setInitialized.setStatus .success) := by
  simp [exec, execInit, h, finish]

theorem exec_init_of_initialized (l mac : Nat) {s : State} (h : s.initialized = true) :
    exec (.init l mac) s = .fault .doubleInit := by
  simp [exec, execInit, h, raise]

/-- Step 2 of R230. -/
theorem exec_of_not_initialized {i : Instr} {s : State} (hop : opcode i ≠ 1) (h : s.initialized = false) :
    exec i s = .fault .notInitialized := by
  cases i with
  | init l mac => exact absurd rfl hop
  | _ => simp [exec, execCcmsEnc, execCcmsDec, execCbcEncRaw, execCtrEncRaw, execEcbEnc, whenInitialized, h, raise]

/-- A rejected command reports its code and does nothing else (R266). -/
theorem exec_of_rejection {i : Instr} {s : State} {c : StatusCode} (hi : s.initialized = true)
    (h : rejection i s = some c) : exec i s = .next (s.setStatus c) := by
  cases i with
  | init l mac => exact absurd h (by simp [rejection])
  | _ =>
    simp only [rejection] at h
    simp only [exec, execCcmsEnc, execCcmsDec, execCbcEncRaw, execCtrEncRaw, execEcbEnc, whenInitialized_of hi]
    split_ifs at h ⊢ <;> simp_all [finish]

/-- An empty `CTR_ENC_RAW` checks no region and succeeds (R168). -/
theorem exec_emptyCtr {i : Instr} {s : State} (hi : s.initialized = true) (h : opcode i = 5 ∧ s.lenM.toNat = 0) :
    exec i s = .next (s.setStatus .success) := by
  obtain ⟨hop, h0⟩ := h
  obtain ⟨l, mac, rfl⟩ := eq_ctrEncRaw_of_opcode hop
  simp [exec, execCtrEncRaw, whenInitialized_of hi, ctrLengthOk, h0, finish]

/-- A command whose arguments are in order checks its regions, then works on its operands (R265). -/
theorem exec_of_argumentsOk {i : Instr} {s : State} (hi : s.initialized = true) (hop : opcode i ≠ 1)
    (hargs : argumentsOk i s = true) (hctr : ¬ (opcode i = 5 ∧ s.lenM.toNat = 0)) :
    exec i s = whenOperandsOk s (readOnlyRegions i s) (writtenRegion i s) (commandEnd i s (commandResult i s)) := by
  cases i with
  | init l mac => exact absurd rfl hop
  | ccmsEnc L M =>
    obtain ⟨hp, hl⟩ := Bool.and_eq_true_iff.mp hargs
    obtain ⟨out, hok, _⟩ := ccmsEncResult_checked s L M hp hl
    simp only [exec, execCcmsEnc, whenInitialized_of hi, hp, hl, hok, commandResult]
    rfl
  | ccmsDec L M =>
    obtain ⟨hp, hl⟩ := Bool.and_eq_true_iff.mp hargs
    simp only [exec, execCcmsDec, whenInitialized_of hi, hp, hl]
    rfl
  | cbcEncRaw l mac =>
    have hl : cbcLengthOk s.lenM.toNat = true := hargs
    rw [← deliverRaw_commandResult (by simp [opcode]) hargs]
    simp only [exec, execCbcEncRaw, whenInitialized_of hi, hl]
    rfl
  | ctrEncRaw l mac =>
    have hl : ctrLengthOk s.lenM.toNat = true := hargs
    have h0 : s.lenM.toNat ≠ 0 := fun h0 => hctr ⟨rfl, h0⟩
    rw [← deliverRaw_commandResult (by simp [opcode]) hargs]
    simp only [exec, execCtrEncRaw, whenInitialized_of hi, hl, if_neg h0]
    rfl
  | ecbEnc l mac =>
    have hl : ecbLengthOk s.lenM.toNat = true := hargs
    rw [← deliverRaw_commandResult (by simp [opcode]) hargs]
    simp only [exec, execEcbEnc, whenInitialized_of hi, hl]
    rfl

/-- A command whose arguments and operands are in order ends with its pure function's result (R230). -/
theorem exec_of_operandsOk {i : Instr} {s : State} (hi : s.initialized = true) (hop : opcode i ≠ 1)
    (hargs : argumentsOk i s = true) (hctr : ¬ (opcode i = 5 ∧ s.lenM.toNat = 0))
    (hops : OperandsOk s (readOnlyRegions i s) (writtenRegion i s)) :
    exec i s = commandEnd i s (commandResult i s) := by
  rw [exec_of_argumentsOk hi hop hargs hctr, whenOperandsOk_of_ok hops]

/-! ### What a completing command has done -/

/-- The state a successful command leaves: its result in place, and `LEN_M` as the command reports it. -/
def completed (i : Instr) (s : State) (out : Octets) : State :=
  ((storeMessage s out).setLenM (finalLenM i s)).setStatus .success

/-- The four ways in which a command other than `INIT` completes: rejected, empty `CTR_ENC_RAW`, `Success`, or
`AuthenticationFailed`. -/
inductive Completes (i : Instr) (s : State) : State → Prop
  | rejected {c : StatusCode} (h : rejection i s = some c) : Completes i s (s.setStatus c)
  | emptyCtr (h : opcode i = 5 ∧ s.lenM.toNat = 0) : Completes i s (s.setStatus .success)
  | success {out : Octets} (hargs : argumentsOk i s = true) (hctr : ¬ (opcode i = 5 ∧ s.lenM.toNat = 0))
      (hops : OperandsOk s (readOnlyRegions i s) (writtenRegion i s))
      (hok : commandResult i s = .ok out (finalLenM i s)) (hlen : out.length = (writtenRegion i s).len) :
      Completes i s (completed i s out)
  | authenticationFailed (hargs : argumentsOk i s = true)
      (hops : OperandsOk s (readOnlyRegions i s) (writtenRegion i s))
      (herr : commandResult i s = .err .authenticationFailed) (hop : opcode i = 3) (hmac : i.macField ≠ 0) :
      Completes i s ((scrambleMessage s i.lField).setStatus .authenticationFailed)

/-- Everything a completing command can have done. -/
theorem exec_next_cases {i : Instr} {s t : State} (h : exec i s = .next t) :
    (opcode i = 1 ∧ s.initialized = false ∧ t = s.setInitialized.setStatus .success) ∨
      (opcode i ≠ 1 ∧ s.initialized = true ∧ Completes i s t) := by
  by_cases hop : opcode i = 1
  · obtain ⟨l, mac, rfl⟩ := eq_init_of_opcode hop
    obtain ⟨hi, ht⟩ := exec_init_next h
    exact .inl ⟨rfl, hi, ht⟩
  refine .inr ⟨hop, ?_⟩
  cases hi : s.initialized with
  | false => rw [exec_of_not_initialized hop hi] at h; exact absurd h (by simp)
  | true =>
    refine ⟨rfl, ?_⟩
    cases hrej : rejection i s with
    | some c =>
      obtain rfl := Host.Outcome.next.inj ((exec_of_rejection hi hrej).symm.trans h)
      exact .rejected hrej
    | none =>
      have hargs := (rejection_eq_none_iff i s).mp hrej
      by_cases hctr : opcode i = 5 ∧ s.lenM.toNat = 0
      · obtain rfl := Host.Outcome.next.inj ((exec_emptyCtr hi hctr).symm.trans h)
        exact .emptyCtr hctr
      rw [exec_of_argumentsOk hi hop hargs hctr] at h
      obtain ⟨hops, h⟩ := whenOperandsOk_next h
      obtain ⟨out, hok, hlen⟩ | ⟨herr, hdec, hmac⟩ := commandResult_checked hop hargs
      · rw [hok] at h
        obtain rfl := finish_next h
        exact .success hargs hctr hops hok hlen
      · rw [herr] at h
        obtain rfl := finish_next h
        exact .authenticationFailed hargs hops herr hdec hmac

end Sys2Proof.Machine

/-! The checks before a command's work (spec/43_engine_contract.md R230, R231, spec/60_exceptions.md R261, R262,
R266), and the codes that a command can write. -/

namespace Sys2Proof.Machine

/-- Settles O7: `STATUS` is computed from the two fields that `INIT` writes. -/
theorem initCompletes : Obligations.InitCompletes :=
  fun l mac _ h => ⟨exec_init_of_fresh l mac h, (by decide : statusWord true .success = 0x101)⟩

/-- Settles O8: the order of commands is checked before everything else. -/
theorem commandsOutOfOrderFault : Obligations.CommandsOutOfOrderFault :=
  ⟨fun l mac _ h => exec_init_of_initialized l mac h, fun _ _ h hop => exec_of_not_initialized hop h⟩

/-- Settles O9: none of the four meanings has its fields in its body. -/
theorem unusedFieldsAreIgnored : Obligations.UnusedFieldsAreIgnored :=
  fun _ _ _ _ _ => ⟨rfl, rfl, rfl, rfl⟩

theorem ccmParametersOk_eq_false {L M : Nat} (h : L < 2 ∨ 8 < L ∨ (M ≠ 0 ∧ M ≠ 4 ∧ M ≠ 8 ∧ M ≠ 16)) :
    ccmParametersOk L M = false := by
  rw [← Bool.not_eq_true, ccmParametersOk_iff]
  omega

/-- Settles O10: the parameters are the first thing a CCM* command is rejected for. -/
theorem unacceptedParametersReported : Obligations.UnacceptedParametersReported := by
  intro L M s hi h
  have hp := ccmParametersOk_eq_false h
  exact ⟨exec_of_rejection hi (by simp [rejection, hp]), exec_of_rejection hi (by simp [rejection, hp])⟩

/-- Settles O11: with accepted parameters, the only other rejection is of a length. -/
theorem unacceptedLengthsReported : Obligations.UnacceptedLengthsReported := by
  intro s hi
  refine ⟨fun l mac h => ?ecb, fun l mac h => ?cbc, fun l mac h => ?ctr, fun L M hL2 hL8 hM h => ?enc,
    fun L M hL2 hL8 hM h => ?dec⟩
  case ecb =>
    have hl : ¬ ecbLengthOk s.lenM.toNat = true := by rwa [ecbLengthOk_iff]
    exact exec_of_rejection hi (by simp [rejection, hl])
  case cbc =>
    have hl : ¬ cbcLengthOk s.lenM.toNat = true := by rw [cbcLengthOk_iff]; omega
    exact exec_of_rejection hi (by simp [rejection, hl])
  case ctr =>
    have hl : ¬ ctrLengthOk s.lenM.toNat = true := by rw [ctrLengthOk_iff]; omega
    exact exec_of_rejection hi (by simp [rejection, hl])
  case enc =>
    have hp := (ccmParametersOk_iff L M).mpr ⟨⟨hL2, hL8⟩, hM⟩
    have hl : ¬ ccmEncLengthsOk s.lenA.toNat s.lenM.toNat M = true := by rw [ccmEncLengthsOk_iff]; omega
    exact exec_of_rejection hi (by simp [rejection, hp, hl])
  case dec =>
    have hp := (ccmParametersOk_iff L M).mpr ⟨⟨hL2, hL8⟩, hM⟩
    have hl : ¬ ccmDecLengthsOk s.lenA.toNat s.lenM.toNat M = true := by rw [ccmDecLengthsOk_iff]; omega
    exact exec_of_rejection hi (by simp [rejection, hp, hl])

/-- A command that reports one of the two codes of R266 was rejected with it. -/
theorem rejection_of_status {i : Instr} {s t : State} (h : exec i s = .next t)
    (hcode : t.status = .invalidParameter ∨ t.status = .invalidLength) :
    s.initialized = true ∧ rejection i s = some t.status ∧ t = s.setStatus t.status := by
  obtain ⟨_, _, rfl⟩ | ⟨_, hi, hend⟩ := exec_next_cases h
  · simp at hcode
  cases hend with
  | rejected hrej => exact ⟨hi, hrej, rfl⟩
  | emptyCtr _ => simp at hcode
  | success _ _ _ _ _ => simp [completed] at hcode
  | authenticationFailed _ _ _ _ _ => simp at hcode

/-- Settles O12: memory is no argument of `rejection`. -/
theorem rejectedCommandChangesOnlyStatus : Obligations.RejectedCommandChangesOnlyStatus := by
  intro i s t h hcode
  obtain ⟨hi, hrej, ht⟩ := rejection_of_status h hcode
  have hmem : ∀ m : Memory, rejection i { s with mem := m } = rejection i s := fun m => by cases i <;> rfl
  exact ⟨ht, fun m => exec_of_rejection hi ((hmem m).trans hrej)⟩

/-- The raw commands have no parameters to reject (R261). -/
theorem rejection_raw {i : Instr} {s : State} {c : StatusCode} (hraw : 4 ≤ opcode i) (h : rejection i s = some c) :
    c = .invalidLength := by
  cases i with
  | init _ _ | ccmsEnc _ _ | ccmsDec _ _ => simp [opcode] at hraw
  | _ =>
    simp only [rejection] at h
    split_ifs at h
    exact (Option.some.inj h).symm

/-- The codes a completing command can report, by its opcode (R42). -/
theorem exec_next_status {i : Instr} {s t : State} (h : exec i s = .next t) :
    t.status = .success ∨ ((opcode i = 2 ∨ opcode i = 3) ∧ t.status = .invalidParameter) ∨
      (opcode i ≠ 1 ∧ t.status = .invalidLength) ∨
      (opcode i = 3 ∧ t.status = .authenticationFailed ∧ 0 < i.macField) := by
  obtain ⟨_, _, rfl⟩ | ⟨hop, _, hend⟩ := exec_next_cases h
  · exact .inl rfl
  cases hend with
  | rejected hrej =>
    obtain rfl | rfl := rejection_code hrej
    · have hccm : ¬ 4 ≤ opcode i := fun hraw => by simpa using rejection_raw hraw hrej
      have := opcode_mem_rows i
      exact .inr (.inl ⟨by omega, rfl⟩)
    · exact .inr (.inr (.inl ⟨hop, rfl⟩))
  | emptyCtr _ => exact .inl rfl
  | success _ _ _ _ _ => exact .inl rfl
  | authenticationFailed _ _ _ hdec hmac => exact .inr (.inr (.inr ⟨hdec, rfl, Nat.pos_of_ne_zero hmac⟩))

/-- Settles O13: `exec_next_status` for each opcode. -/
theorem commandsWriteTheirListedCodes : Obligations.CommandsWriteTheirListedCodes := by
  intro i s t h
  have hstatus := exec_next_status h
  cases i <;> simpa [opcode, Instr.macField] using hstatus

/-! ### What a completing command leaves alone -/

theorem keepsHostSide_of_completes {i : Instr} {s t : State} (h : Completes i s t) : KeepsHostSide s t := by
  cases h <;> exact ⟨rfl, rfl, rfl, rfl, rfl, rfl, rfl, rfl, rfl⟩

theorem initialized_of_completes {i : Instr} {s t : State} (h : Completes i s t) : t.initialized = s.initialized := by
  cases h <;> rfl

/-- Settles O40: each way to complete is a chain of updates of other fields. -/
theorem commandFrame : Obligations.CommandFrame := by
  intro i s t h
  obtain ⟨hop, _, rfl⟩ | ⟨_, _, hend⟩ := exec_next_cases h
  · exact ⟨⟨rfl, rfl, rfl, rfl, rfl, rfl, rfl, rfl, rfl⟩, fun hne => absurd hop hne, fun _ => rfl⟩
  refine ⟨keepsHostSide_of_completes hend, fun _ => initialized_of_completes hend, fun hstatus => ?_⟩
  cases hend with
  | rejected _ | emptyCtr _ | success _ _ _ _ _ => rfl
  | authenticationFailed _ _ _ _ _ => exact absurd rfl hstatus

/-- The length a checked command reports fits `LEN_M`, and a decryption takes no more than there is. -/
theorem finalLenM_of_argumentsOk {i : Instr} {s : State} (hargs : argumentsOk i s = true) :
    finalLenM i s < 2 ^ 32 ∧ (opcode i = 3 → i.macField ≤ s.lenM.toNat) := by
  have hlt := s.lenM.isLt
  cases i with
  | ccmsEnc L M =>
    obtain ⟨_, hl⟩ := Bool.and_eq_true_iff.mp hargs
    rw [ccmEncLengthsOk_iff] at hl
    exact ⟨by simp only [finalLenM]; omega, by simp [opcode]⟩
  | ccmsDec L M =>
    obtain ⟨_, hl⟩ := Bool.and_eq_true_iff.mp hargs
    rw [ccmDecLengthsOk_iff] at hl
    exact ⟨by simp only [finalLenM]; omega, fun _ => hl.2.2⟩
  | _ => exact ⟨hlt, by simp [opcode]⟩

/-- `LEN_M` after a completing command: the reported length on success, else unchanged (R37). -/
theorem exec_next_lenM {i : Instr} {s t : State} (h : exec i s = .next t) :
    t.lenM.toNat = (if t.status = .success then finalLenM i s else s.lenM.toNat) ∧
      (t.status = .success → opcode i = 3 → i.macField ≤ s.lenM.toNat) := by
  obtain ⟨hop, _, rfl⟩ | ⟨_, _, hend⟩ := exec_next_cases h
  · obtain ⟨l, mac, rfl⟩ := eq_init_of_opcode hop
    simp [finalLenM, opcode]
  cases hend with
  | rejected hrej => obtain rfl | rfl := rejection_code hrej <;> simp
  | emptyCtr hctr =>
    obtain ⟨hop, h0⟩ := hctr
    obtain ⟨l, mac, rfl⟩ := eq_ctrEncRaw_of_opcode hop
    simp [finalLenM, opcode]
  | success hargs _ _ _ _ =>
    obtain ⟨hfits, hmac⟩ := finalLenM_of_argumentsOk hargs
    exact ⟨by simpa [completed] using Nat.mod_eq_of_lt hfits, fun _ => hmac⟩
  | authenticationFailed _ _ _ _ _ => simp

/-- Settles O42: `finalLenM` is `LEN_M` for every command that is not CCM*. -/
theorem lenMWrittenOnlyByCcmSuccess : Obligations.LenMWrittenOnlyByCcmSuccess := by
  intro i s t h
  obtain ⟨hlen, hmac⟩ := exec_next_lenM h
  cases i with
  | ccmsEnc L M => exact hlen
  | ccmsDec L M => exact ⟨hlen, fun hs => hmac hs rfl⟩
  | _ => exact BitVec.eq_of_toNat_eq (hlen.trans (ite_self _))

/-! ### The invariant -/

/-- A string that fills the written region of checked operands keeps memory canonical. -/
theorem storeMessage_wf {i : Instr} {s : State} {v : Octets} (hwf : Memory.wf s.mem = true)
    (hops : OperandsOk s (readOnlyRegions i s) (writtenRegion i s)) (hv : v.length = (writtenRegion i s).len) :
    Memory.wf (storeMessage s v).mem = true := by
  have hstart : (writtenRegion i s).start = s.mPtr.toNat := by rw [writtenRegion_eq_messageRegion]; rfl
  have hfits := hops.written_fits (hstart ▸ s.mPtr.isLt)
  rw [hstart, ← hv] at hfits
  exact writeOctets_wf v s.mem _ hwf hfits

/-- A command keeps memory canonical. -/
theorem exec_wf {i : Instr} {s t : State} (h : exec i s = .next t) (hwf : Memory.wf s.mem = true) :
    Memory.wf t.mem = true := by
  obtain ⟨_, _, rfl⟩ | ⟨_, _, hend⟩ := exec_next_cases h
  · exact hwf
  cases hend with
  | rejected _ | emptyCtr _ => exact hwf
  | success _ _ hops _ hlen => exact storeMessage_wf hwf hops hlen
  | authenticationFailed _ hops _ hdec _ =>
    refine storeMessage_wf hwf hops ?_
    obtain ⟨L, M, rfl⟩ := eq_ccmsDec_of_opcode hdec
    exact drawOctets_length _ _ _

theorem exec_status_ne_none {i : Instr} {s t : State} (h : exec i s = .next t) : t.status ≠ .none := by
  obtain hs | ⟨_, hs⟩ | ⟨_, hs⟩ | ⟨_, hs, _⟩ := exec_next_status h <;> simp [hs]

theorem exec_machineInvariant {i : Instr} {s t : State} (h : exec i s = .next t) (hs : machineInvariant s) :
    machineInvariant t := by
  obtain ⟨hwf, _, hfaulted⟩ := hs
  obtain ⟨⟨_, _, _, _, _, hkeep, _⟩, _⟩ := commandFrame i s t h
  exact ⟨exec_wf h hwf, fun _ => exec_status_ne_none h, hkeep.trans hfaulted⟩

/-- A `CMD` write keeps the invariant, whether its word is a command or reserved. -/
theorem issueCommand_machineInvariant {w : Word} {s t : State} (h : issueCommand w s = .next t)
    (hs : machineInvariant s) : machineInvariant t := by
  obtain ⟨_, _, rfl⟩ | ⟨i, _, hexec⟩ := issueCommand_next h
  · exact ⟨hs.1, fun _ => by simp, hs.2.2⟩
  · exact exec_machineInvariant hexec hs

/-- Every event keeps the invariant: those that are no command touch one register, one octet or the host's record, and
a reset clears `INITIALIZED`. -/
theorem hostAccess_machineInvariant {op : HostOp} {s t : State} (h : hostAccess op s = .next t)
    (hs : machineInvariant s) : machineInvariant t := by
  obtain ⟨hwf, hstatus, hfaulted⟩ := hs
  obtain ⟨_, _, v, _, _, hcmd⟩ | ⟨_, _, v, r, _, _, _, rfl⟩ | ⟨_, _, r, _, _, rfl⟩ | ⟨a, v, _, _, rfl⟩ |
    ⟨a, _, _, rfl⟩ | ⟨_, rfl⟩ := hostAccess_next h
  · exact issueCommand_machineInvariant hcmd ⟨hwf, hstatus, hfaulted⟩
  · simpa [machineInvariant] using And.intro hwf (And.intro hstatus hfaulted)
  · exact ⟨hwf, hstatus, hfaulted⟩
  · exact ⟨writeOctet_wf v hwf a.isLt, hstatus, hfaulted⟩
  · exact ⟨hwf, hstatus, hfaulted⟩
  · exact ⟨hwf, by simp, rfl⟩

/-- Settles O44: an idle step changes nothing, and taking an access off the list touches nothing the invariant names. -/
theorem stepKeepsInvariant : Obligations.StepKeepsInvariant := by
  intro s t hs h
  obtain ⟨_, ⟨_, rfl⟩ | ⟨op, rest, _, haccess⟩⟩ := step_next h
  · exact hs
  · exact hostAccess_machineInvariant haccess hs

/-- Settles O45: reset lists no octet and clears `INITIALIZED`. -/
theorem resetMeetsInvariant : Obligations.ResetMeetsInvariant := ⟨reset_mem_wf, by simp [State.reset], rfl⟩

/-- No command clears `INITIALIZED`. -/
theorem exec_initialized {i : Instr} {s t : State} (h : exec i s = .next t) (hs : s.initialized = true) :
    t.initialized = true := by
  obtain ⟨_, _, rfl⟩ | ⟨_, _, hend⟩ := exec_next_cases h
  · rfl
  · rw [initialized_of_completes hend, hs]

/-- Settles O46: of the events, only a reset writes `INITIALIZED` but by a command. -/
theorem onlyResetClearsInitialized : Obligations.OnlyResetClearsInitialized := by
  intro s t h hs hreset
  obtain ⟨_, ⟨_, rfl⟩ | ⟨op, rest, hpending, haccess⟩⟩ := step_next h
  · exact hs
  obtain ⟨_, _, v, _, _, hcmd⟩ | ⟨_, _, v, r, _, _, _, rfl⟩ | ⟨_, _, r, _, _, rfl⟩ | ⟨a, v, _, _, rfl⟩ |
    ⟨a, _, _, rfl⟩ | ⟨rfl, _⟩ := hostAccess_next haccess
  · obtain ⟨_, _, rfl⟩ | ⟨i, _, hexec⟩ := issueCommand_next hcmd
    · exact hs
    · exact exec_initialized hexec hs
  · simpa using hs
  · exact hs
  · exact hs
  · exact hs
  · exact absurd (hreset _ _ hpending) (by simp [HostOp.isReset])

end Sys2Proof.Machine

/-! Single events of the host (spec/10_state.md R32 to R37, spec/20_memory.md R64, R73, spec/70_reset_and_hazards.md
R290): the registers, the octets of memory, resets, and that nothing is refused. -/

namespace Sys2Proof.Machine

/-! ### Steps -/

/-- With no fault recorded, a step is the next event on the state with that event taken from the list (R73). -/
theorem step_of_pending {s : State} {op : HostOp} {rest : List HostOp} (hfaulted : s.faulted = none)
    (hpending : s.pending = op :: rest) : step s = hostAccess op (s.setPending rest) := by
  simp only [step, hfaulted, hpending]

theorem step_of_faulted {s : State} {f : Fault} (h : s.faulted = some f) : step s = .fault f := by
  simp only [step, h, raise]

theorem step_of_idle {s : State} (hfaulted : s.faulted = none) (hpending : s.pending = []) : step s = .next s := by
  simp only [step, hfaulted, hpending]

theorem issueCommand_of_command {w : Word} {i : Instr} (hw : decode w = .command i) (s : State) :
    issueCommand w s = exec i s := by
  simp only [issueCommand, hw]

/-- Settles O5: a `CMD` write issues its word, which runs the command it decodes to. -/
theorem stepRunsDecodedCommand : Obligations.StepRunsDecodedCommand := by
  intro s rest w i hfaulted hpending hw
  rw [step_of_cmd_pending hfaulted hpending, issueCommand_of_command hw]

/-- Settles O53: `step` looks at the record first, and `advance` records the same fault again. -/
theorem faultIsFinalAndIdleChangesNothing : Obligations.FaultIsFinalAndIdleChangesNothing := by
  refine ⟨fun s f h => ⟨step_of_faulted h, ?_⟩, fun s => step_of_idle⟩
  simp only [advance, step_of_faulted h, State.setFaulted_faulted]

/-- `STATUS` reads 0 before the first command (R33, R44). -/
theorem readReg_status_of_clear {s : State} (hinit : s.initialized = false) (hstatus : s.status = .none) :
    readReg s .status = 0 := by
  simp [readReg, statusWord, StatusCode.value, hinit, hstatus]

/-- Settles O54: a reset event is `applyReset`. -/
theorem resetValues : Obligations.ResetValues :=
  ⟨⟨rfl, rfl, rfl, readReg_status_of_clear rfl rfl, rfl⟩, fun _ _ hfaulted hpending =>
    ⟨_, step_of_pending hfaulted hpending, rfl, rfl, rfl, readReg_status_of_clear rfl rfl, rfl, rfl, rfl, rfl⟩⟩

/-! ### Nothing is refused -/

/-- The outcome is no refusal. -/
def NotRefused (r : StepResult) : Prop := ∀ q, r ≠ .refused q

theorem notRefused_next (t : State) : NotRefused (.next t) := fun _ => by simp

theorem notRefused_fault (f : Fault) : NotRefused (.fault f) := fun _ => by simp

theorem notRefused_whenOperandsOk {s : State} {ro : List Region} {w : Region} {body : StepResult}
    (h : NotRefused body) : NotRefused (whenOperandsOk s ro w body) := by
  unfold whenOperandsOk
  split
  · exact notRefused_fault _
  · exact h

theorem notRefused_commandEnd (i : Instr) (s : State) (r : PureResult) : NotRefused (commandEnd i s r) := by
  unfold commandEnd
  split <;> exact notRefused_next _

/-- Each case of a command's checks ends in a state, a fault, or `commandEnd`. -/
theorem notRefused_exec (i : Instr) (s : State) : NotRefused (exec i s) := by
  by_cases hop : opcode i = 1
  · obtain ⟨l, mac, rfl⟩ := eq_init_of_opcode hop
    cases hi : s.initialized with
    | true => rw [exec_init_of_initialized l mac hi]; exact notRefused_fault _
    | false => rw [exec_init_of_fresh l mac hi]; exact notRefused_next _
  cases hi : s.initialized with
  | false => rw [exec_of_not_initialized hop hi]; exact notRefused_fault _
  | true =>
    cases hrej : rejection i s with
    | some c => rw [exec_of_rejection hi hrej]; exact notRefused_next _
    | none =>
      by_cases hctr : opcode i = 5 ∧ s.lenM.toNat = 0
      · rw [exec_emptyCtr hi hctr]; exact notRefused_next _
      · rw [exec_of_argumentsOk hi hop ((rejection_eq_none_iff i s).mp hrej) hctr]
        exact notRefused_whenOperandsOk (notRefused_commandEnd i s _)

theorem notRefused_hostRegWrite (r : Reg) (v : Word) (s : State) : NotRefused (hostRegWrite r v s) := by
  unfold hostRegWrite issueCommand
  split
  · split
    · exact notRefused_next _
    · exact notRefused_exec _ s
  · exact notRefused_next _

theorem notRefused_hostAccess (op : HostOp) (s : State) : NotRefused (hostAccess op s) := by
  cases op with
  | regWrite size off v =>
    simp only [hostAccess]
    split
    · exact notRefused_hostRegWrite _ v s
    · exact notRefused_fault _
  | regRead size off =>
    simp only [hostAccess]
    split
    · exact notRefused_next _
    · exact notRefused_fault _
  | octetWrite a v | octetRead a =>
    simp only [hostAccess]
    split
    · exact notRefused_fault _
    · exact notRefused_next _
  | reset => exact notRefused_next _

/-- Settles O47: a step is a recorded fault, an idle step, or an event. -/
theorem nothingIsRefused : Obligations.NothingIsRefused := by
  refine ⟨notRefused_exec, fun s => ?_⟩
  cases hf : s.faulted with
  | some f => rw [step_of_faulted hf]; exact notRefused_fault f
  | none =>
    cases hp : s.pending with
    | nil => rw [step_of_idle hf hp]; exact notRefused_next s
    | cons op rest => rw [step_of_pending hf hp]; exact notRefused_hostAccess op _

/-! ### The registers -/

/-- The register at an offset is the one that has this offset (R32). -/
theorem regAtOffset_eq_some_iff (off : Addr) (r : Reg) : regAtOffset off = some r ↔ r.offset = off := by
  constructor
  · intro h
    unfold regAtOffset at h
    split at h
    case h_9 => exact absurd h (by simp)
    all_goals
      next hoff =>
        obtain rfl := Option.some.inj h
        exact BitVec.eq_of_toNat_eq hoff.symm
  · rintro rfl
    cases r <;> rfl

/-- The offsets of the eight registers are the aligned ones below 0x20 (R64). -/
theorem exists_reg_offset_iff (off : Addr) : (∃ r : Reg, r.offset = off) ↔ off.toNat % 4 = 0 ∧ off.toNat < 0x20 := by
  constructor
  · rintro ⟨r, rfl⟩
    cases r <;> decide
  · rintro ⟨halign, hlt⟩
    obtain ⟨k, hk⟩ : ∃ k, off.toNat = 4 * k := ⟨off.toNat / 4, by omega⟩
    have hk8 : k < 8 := by omega
    obtain rfl : off = BitVec.ofNat 32 (4 * k) := by rw [← hk, BitVec.ofNat_toNat, BitVec.setWidth_eq]
    interval_cases k
    exacts [⟨.cmd, rfl⟩, ⟨.status, rfl⟩, ⟨.keyPtr, rfl⟩, ⟨.noncePtr, rfl⟩, ⟨.aPtr, rfl⟩, ⟨.lenA, rfl⟩, ⟨.mPtr, rfl⟩,
      ⟨.lenM, rfl⟩]

/-- A host access reaches a register exactly when it is a 32-bit one at that register's offset (R64). -/
theorem accessedReg_eq_some_iff (size : AccessSize) (off : Addr) (r : Reg) :
    accessedReg size off = some r ↔ size = .word ∧ r.offset = off := by
  cases size <;> simp [accessedReg, regAtOffset_eq_some_iff]

@[simp] theorem hostAccess_hostWr (r : Reg) (v : Word) (s : State) :
    hostAccess (hostWr r v) s = hostRegWrite r v s := by
  simp only [hostWr, hostAccess, (accessedReg_eq_some_iff _ _ r).mpr ⟨rfl, rfl⟩]

@[simp] theorem hostAccess_hostRd (r : Reg) (s : State) :
    hostAccess (hostRd r) s = .next (s.observe (readReg s r)) := by
  simp only [hostRd, hostAccess, (accessedReg_eq_some_iff _ _ r).mpr ⟨rfl, rfl⟩]

theorem hostRegWrite_of_ne_cmd {r : Reg} (hr : r ≠ .cmd) (v : Word) (s : State) :
    hostRegWrite r v s = .next (s.writeReg r v) := by
  cases r <;> simp_all [hostRegWrite]

theorem readReg_writeReg_same {r : Reg} (hcmd : r ≠ .cmd) (hstatus : r ≠ .status) (s : State) (v : Word) :
    readReg (s.writeReg r v) r = v := by
  cases r <;> simp_all [readReg]

theorem readReg_writeReg_other {r r' : Reg} (h : r' ≠ r) (s : State) (v : Word) :
    readReg (s.writeReg r v) r' = readReg s r' := by
  cases r' <;> simp [readReg, h.symm]

/-- Taking an access from the list commutes with a register write. -/
theorem setPending_writeReg (s : State) (ops : List HostOp) (r : Reg) (v : Word) :
    (s.writeReg r v).setPending ops = (s.setPending ops).writeReg r v := by
  cases r <;> rfl

/-- Settles O48: the two steps are `hostAccess_hostWr` and `hostAccess_hostRd`. -/
theorem operandRegisterReadsBack : Obligations.OperandRegisterReadsBack := by
  intro s rest r v hfaulted hpending hcmd hstatus
  refine ⟨?write, fun r' hr' => readReg_writeReg_other hr' s v, ?read⟩
  case write => rw [step_of_pending hfaulted hpending, hostAccess_hostWr, hostRegWrite_of_ne_cmd hcmd]
  case read =>
    rw [step_of_pending (by simpa using hfaulted) (State.writeReg_pending _ r v), hostAccess_hostRd,
      setPending_writeReg, readReg_writeReg_same hcmd hstatus]
    rfl

/-- Settles O49: `CMD` has no storage, and `STATUS` takes no write. -/
theorem cmdReadsZeroAndStatusIsReadOnly : Obligations.CmdReadsZeroAndStatusIsReadOnly := by
  intro s rest v hfaulted
  constructor
  · intro hpending
    rw [step_of_pending hfaulted hpending, hostAccess_hostRd]
    rfl
  · intro hpending
    rw [step_of_pending hfaulted hpending, hostAccess_hostWr, hostRegWrite_of_ne_cmd (by decide)]
    rfl

/-- The bits of `STATUS` above `CODE` (R33). -/
theorem statusWord_layout (initialized : Bool) (c : StatusCode) :
    (statusWord initialized c).extractLsb' 3 5 = 0 ∧ (statusWord initialized c).getLsbD 8 = initialized ∧
      (statusWord initialized c).extractLsb' 9 23 = 0 := by
  cases initialized <;> cases c <;> decide

/-- Settles O50: the layout holds of every word `statusWord` builds. -/
theorem statusRegisterLayout : Obligations.StatusRegisterLayout := by
  intro s
  refine ⟨(statusWord_code s.initialized s.status).trans ?_, statusWord_layout s.initialized s.status⟩
  cases s.status <;> rfl

/-! ### Accesses that fault -/

theorem hostAccess_regWrite_of_none {size : AccessSize} {off : Addr} (h : accessedReg size off = none) (v : Word)
    (s : State) : hostAccess (.regWrite size off v) s = .fault .badRegisterAccess := by
  simp only [hostAccess, h, raise]

theorem hostAccess_regRead_of_none {size : AccessSize} {off : Addr} (h : accessedReg size off = none) (s : State) :
    hostAccess (.regRead size off) s = .fault .badRegisterAccess := by
  simp only [hostAccess, h, raise]

/-- `ENGINE_BASE` is a multiple of 32 (R71). -/
theorem engineBase_toNat_mod (p : Platform) : (engineBase p).toNat % 32 = 0 := by
  have happend : (engineBase p).toNat = p.engineBlock.toNat <<< 5 ||| 0 := BitVec.toNat_append p.engineBlock 0
  rw [happend, Nat.or_zero, Nat.shiftLeft_eq, Nat.mul_mod_left]

/-- The 32 octets of the block lie in its decoded range (R71). -/
theorem inRegisterBlock_of_block {p : Platform} {a : Nat} (hlow : (engineBase p).toNat ≤ a)
    (hhigh : a < (engineBase p).toNat + 32) : inRegisterBlock p a = true := by
  simp only [inRegisterBlock, Bool.and_eq_true, decide_eq_true_eq]
  omega

/-- Settles O51: an access with no register is neither 32-bit nor at a register's offset, by `accessedReg_eq_some_iff`
and `exists_reg_offset_iff`. -/
theorem badRegisterAccessFaults : Obligations.BadRegisterAccessFaults := by
  intro s size off v
  refine ⟨?aligned, ?registers, ?octets⟩
  case aligned =>
    have hbase := engineBase_toNat_mod s.platform
    rw [BitVec.toNat_add]
    omega
  case registers =>
    split
    case isTrue hbad =>
      have hnone : accessedReg size off = none := by
        rw [Option.eq_none_iff_forall_ne_some]
        intro r hr
        obtain ⟨hsize, hoff⟩ := (accessedReg_eq_some_iff size off r).mp hr
        have := (exists_reg_offset_iff off).mp ⟨r, hoff⟩
        simp only [hsize, ne_eq, not_true_eq_false, false_or] at hbad
        omega
      exact ⟨hostAccess_regWrite_of_none hnone v s, hostAccess_regRead_of_none hnone s⟩
    case isFalse hgood =>
      push Not at hgood
      obtain ⟨rfl, halign, hlt⟩ := hgood
      obtain ⟨r, rfl⟩ := (exists_reg_offset_iff off).mpr ⟨halign, hlt⟩
      exact ⟨r, rfl, hostAccess_hostWr r v s, hostAccess_hostRd r s⟩
  case octets =>
    intro a b hlow hhigh
    have hblock := inRegisterBlock_of_block hlow hhigh
    exact ⟨by simp [hostAccess, hblock, raise], by simp [hostAccess, hblock, raise]⟩

/-! ### Octets of memory -/

/-- The step of an octet write outside the register block (R73). -/
theorem step_octetWrite {s : State} {a : Addr} {b : Octet} {rest : List HostOp} (hfaulted : s.faulted = none)
    (hpending : s.pending = .octetWrite a b :: rest) (hblock : inRegisterBlock s.platform a.toNat = false) :
    step s = .next ((s.setPending rest).storeOctets a.toNat [b]) := by
  rw [step_of_pending hfaulted hpending]
  simp [hostAccess, hblock]

/-- The step of an octet read outside the register block (R73). -/
theorem step_octetRead {s : State} {a : Addr} {rest : List HostOp} (hfaulted : s.faulted = none)
    (hpending : s.pending = .octetRead a :: rest) (hblock : inRegisterBlock s.platform a.toNat = false) :
    step s = .next ((s.setPending rest).observe ((readOctet s.mem a.toNat).setWidth 32)) := by
  rw [step_of_pending hfaulted hpending]
  simp [hostAccess, hblock]

/-- Settles O52: the octet is read back by `readOctet_writeOctet_same`, the others by `readOctet_writeOctet_other`. -/
theorem hostOctetReadsBack : Obligations.HostOctetReadsBack := by
  intro s rest a b hwf hfaulted hpending hblock
  refine ⟨_, _, step_octetWrite hfaulted hpending hblock, step_octetRead hfaulted rfl hblock, ?observed, rfl, ?others,
    ?registers⟩
  case observed =>
    have hread : readOctet (writeOctet s.mem a.toNat b) a.toNat = b := readOctet_writeOctet_same s.mem 0 _ b hwf
    exact congrArg (fun o : Octet => o.setWidth 32 :: s.observed) hread
  case others => exact fun x hx => readOctet_writeOctet_other s.mem a.toNat x b hx
  case registers =>
    intro r
    cases r <;> rfl

end Sys2Proof.Machine

/-! The counter of the CTR mode (spec/41_block_modes.md R160, R163, section 3; spec/42_ccm_star.md section 3):
big-endian values, the increment, and CTR as its own inverse. -/

namespace Sys2Proof.Machine

/-! ### Big-endian integers -/

/-- An octet put at the end is the low-order one. -/
theorem intOfBigEndian_concat (b : Octets) (o : Octet) :
    intOfBigEndian (b ++ [o]) = intOfBigEndian b * 256 + o.toNat := by
  simp [intOfBigEndian]

theorem intOfBigEndian_append (a b : Octets) :
    intOfBigEndian (a ++ b) = intOfBigEndian a * 256 ^ b.length + intOfBigEndian b := by
  induction b using List.reverseRecOn with
  | nil => simp [intOfBigEndian]
  | append_singleton b o ih =>
    rw [← List.append_assoc, intOfBigEndian_concat, ih, intOfBigEndian_concat, List.length_append,
      List.length_singleton, Nat.pow_succ]
    ring

@[simp] theorem intOfBigEndian_singleton (o : Octet) : intOfBigEndian [o] = o.toNat := by
  simp [intOfBigEndian]

/-- An n-octet string's value is below 2^(8n) (R12). -/
theorem intOfBigEndian_lt (b : Octets) : intOfBigEndian b < 256 ^ b.length := by
  induction b using List.reverseRecOn with
  | nil => simp [intOfBigEndian]
  | append_singleton b o ih =>
    have ho : o.toNat < 256 := o.isLt
    rw [intOfBigEndian_concat, List.length_append, List.length_singleton, Nat.pow_succ]
    omega

/-- `be_n` keeps the value modulo 2^(8n) (R12). -/
theorem intOfBigEndian_bigEndian (n v : Nat) : intOfBigEndian (bigEndian n v) = v % 256 ^ n := by
  induction n with
  | zero => simp [bigEndian, intOfBigEndian, Nat.mod_one]
  | succ n ih =>
    rw [bigEndian, ← List.singleton_append, intOfBigEndian_append, ih, intOfBigEndian_singleton, bigEndian_length,
      BitVec.toNat_ofNat, Nat.mod_pow_succ (x := v) (b := 256), Nat.add_comm, Nat.mul_comm]

/-- The low octet of `be` stands last. -/
theorem bigEndian_succ (n v : Nat) : bigEndian (n + 1) v = bigEndian n (v / 256) ++ [BitVec.ofNat 8 v] := by
  induction n with
  | zero => simp [bigEndian]
  | succ n ih =>
    rw [bigEndian, ih, bigEndian, Nat.div_div_eq_div_mul, ← Nat.pow_succ']
    rfl

/-- `be_n` inverts `int_be` on n octets (R12). -/
theorem bigEndian_intOfBigEndian (b : Octets) : bigEndian b.length (intOfBigEndian b) = b := by
  induction b using List.reverseRecOn with
  | nil => rfl
  | append_singleton b o ih =>
    have ho : o.toNat < 256 := o.isLt
    have hdiv : (intOfBigEndian b * 256 + o.toNat) / 256 = intOfBigEndian b := by omega
    have hlow : BitVec.ofNat 8 (intOfBigEndian b * 256 + o.toNat) = o := by
      apply BitVec.eq_of_toNat_eq
      rw [BitVec.toNat_ofNat]
      omega
    rw [intOfBigEndian_concat, List.length_append, List.length_singleton, bigEndian_succ, hdiv, hlow, ih]

/-! ### The increment -/

theorem two_pow_eight_mul (W : Nat) : 2 ^ (8 * W) = 256 ^ W := Nat.pow_mul 2 8 W

theorem incCounter_take {W : Nat} {A : Octets} (hA : A.length = 16) :
    (incCounter W A).take (16 - W) = A.take (16 - W) := by
  rw [incCounter, List.take_left' (by rw [List.length_take, hA]; omega)]

theorem incCounter_drop {W : Nat} {A : Octets} (hA : A.length = 16) :
    (incCounter W A).drop (16 - W) = bigEndian W ((intOfBigEndian (A.drop (16 - W)) + 1) % 2 ^ (8 * W)) := by
  rw [incCounter, List.drop_left' (by rw [List.length_take, hA]; omega)]

theorem incCounter_length {W : Nat} {A : Octets} (hW : W ≤ 16) (hA : A.length = 16) :
    (incCounter W A).length = 16 := by
  rw [incCounter, List.length_append, List.length_take, bigEndian_length, hA]
  omega

/-- Settles O19: the fixed octets and the counter field are the two parts `incCounter` joins. -/
theorem counterIncrementIsModular : Obligations.CounterIncrementIsModular := by
  intro W A _ hW hA
  refine ⟨incCounter_length hW hA, incCounter_take hA, ?_⟩
  rw [incCounter_drop hA, intOfBigEndian_bigEndian, two_pow_eight_mul, Nat.mod_mod]

/-- On a fixed part of 16 − W octets followed by a counter field, the increment is the field's. -/
theorem incCounter_append {W : Nat} {P : Octets} (hP : P.length = 16 - W) (v : Nat) :
    incCounter W (P ++ bigEndian W v) = P ++ bigEndian W ((v % 256 ^ W + 1) % 256 ^ W) := by
  rw [incCounter, List.take_left' hP, List.drop_left' hP, intOfBigEndian_bigEndian, two_pow_eight_mul]

/-- A counter block of CCM* is followed by the next one while the counter field does not wrap (R198). -/
theorem incCounter_counterBlock {N : Octets} {L i : Nat} (hL : L ≤ 15) (hN : N.length = 15 - L)
    (hi : i + 1 < 256 ^ L) : incCounter L (counterBlock N L i) = counterBlock N L (i + 1) := by
  have hP : (BitVec.ofNat 8 (L - 1) :: N).length = 16 - L := by rw [List.length_cons, hN]; omega
  have h := incCounter_append hP i
  rwa [Nat.mod_eq_of_lt (Nat.lt_of_succ_lt hi), Nat.mod_eq_of_lt hi] at h

/-- Counting q blocks from A_i, none of which wraps. -/
theorem counterBlocks_counterBlock {N : Octets} {L : Nat} (hL : L ≤ 15) (hN : N.length = 15 - L) (q i : Nat)
    (hq : i + q < 256 ^ L) :
    counterBlocks L (counterBlock N L i) q = (List.range q).map fun j => counterBlock N L (i + j) := by
  induction q generalizing i with
  | zero => rfl
  | succ q ih =>
    rw [counterBlocks, incCounter_counterBlock hL hN (by omega), ih (i + 1) (by omega), List.range_succ_eq_map,
      List.map_cons, List.map_map]
    simp only [Function.comp_def, Nat.add_zero, Nat.succ_eq_add_one, Nat.add_assoc, Nat.add_comm 1]

/-- Settles O29: 16 blocks stay below the 256^L values of the counter field. -/
theorem ccmCounterNeverWraps : Obligations.CcmCounterNeverWraps := by
  intro N L q hL2 hL8 hN hq
  have hpow : 256 ^ 2 ≤ 256 ^ L := Nat.pow_le_pow_right (by decide) hL2
  rw [counterBlocks_counterBlock (by omega) hN q 1 (by omega)]
  simp only [Nat.add_comm 1]

/-! ### The width of the counter -/

/-- While the last octet does not carry, the increment of any width is that of the last octet. -/
theorem incCounter_concat {W : Nat} (hW : 1 ≤ W) (hW16 : W ≤ 16) {P : Octets} (hP : P.length = 15) {o : Octet}
    (ho : o.toNat < 255) : incCounter W (P ++ [o]) = P ++ [o + 1] := by
  have hfixed : 16 - W ≤ P.length := by omega
  have hnext : (o + 1).toNat = o.toNat + 1 := by
    rw [BitVec.toNat_add]
    exact Nat.mod_eq_of_lt (Nat.succ_lt_succ ho)
  have hvalue : intOfBigEndian (P.drop (16 - W) ++ [o]) + 1 = intOfBigEndian (P.drop (16 - W) ++ [o + 1]) := by
    rw [intOfBigEndian_concat, intOfBigEndian_concat, hnext, Nat.add_assoc]
  have hwidth : (P.drop (16 - W) ++ [o + 1]).length = W := by
    rw [List.length_append, List.length_drop, hP, List.length_singleton]
    omega
  have hlt := intOfBigEndian_lt (P.drop (16 - W) ++ [o + 1])
  have hfield := bigEndian_intOfBigEndian (P.drop (16 - W) ++ [o + 1])
  rw [hwidth] at hlt hfield
  rw [incCounter, List.take_append_of_le_length hfixed, List.drop_append_of_le_length hfixed, hvalue,
    two_pow_eight_mul, Nat.mod_eq_of_lt hlt, hfield, ← List.append_assoc, List.take_append_drop]

/-- The counter blocks do not depend on the width while nothing carries out of the last octet. -/
theorem counterBlocks_concat_width {W W' : Nat} (hW : 1 ≤ W ∧ W ≤ 16) (hW' : 1 ≤ W' ∧ W' ≤ 16) {P : Octets}
    (hP : P.length = 15) (q : Nat) (o : Octet) (ho : o.toNat + q ≤ 256) :
    counterBlocks W (P ++ [o]) q = counterBlocks W' (P ++ [o]) q := by
  induction q generalizing o with
  | zero => rfl
  | succ q ih =>
    rw [counterBlocks, counterBlocks]
    congr 1
    obtain rfl | hq := Nat.eq_zero_or_pos q
    · rfl
    · have hnext : (o + 1).toNat ≤ o.toNat + 1 := by
        rw [BitVec.toNat_add]
        exact Nat.mod_le _ _
      rw [incCounter_concat hW.1 hW.2 hP (by omega), incCounter_concat hW'.1 hW'.2 hP (by omega)]
      exact ih (o + 1) (by omega)

/-- Settles O22: the IV is 15 octets and a last one, and the keystream depends on the width through the counter blocks
alone. -/
theorem rawCtrWidthIrrelevantWithoutCarry : Obligations.RawCtrWidthIrrelevantWithoutCarry := by
  intro K IV D W W' _ hIV hW hW16 hW' hW16' hcarry
  obtain ⟨o, ho⟩ : ∃ o, IV.drop 15 = [o] := List.length_eq_one_iff.mp (by rw [List.length_drop, hIV])
  have hP : (IV.take 15).length = 15 := by rw [List.length_take, hIV]; rfl
  have hsplit : IV = IV.take 15 ++ [o] := by rw [← ho, List.take_append_drop]
  rw [ho, intOfBigEndian_singleton] at hcarry
  have ho256 : o.toNat < 256 := o.isLt
  have hblocks : counterBlocks W IV (keystreamBlocks D.length) = counterBlocks W' IV (keystreamBlocks D.length) := by
    rw [hsplit]
    exact counterBlocks_concat_width ⟨hW, hW16⟩ ⟨hW', hW16'⟩ hP _ o (by omega)
  simp only [fCtrRaw, ctr, keystream, hblocks]

/-! ### CTR as its own inverse -/

/-- The keystream is long enough for every octet of D (R162). -/
theorem trunc_keystream_length (K A : Octets) (W : Nat) (hK : K.length = 16) (n : Nat) :
    (trunc (keystream K A W (keystreamBlocks n)) n).length = n := by
  rw [trunc_length, keystream_length K A W _ hK, keystreamBlocks]
  omega

/-- Octet i of CTR is the input's octet and a keystream octet that does not depend on the input (R162). -/
theorem getD_ctr (K A : Octets) (W : Nat) (hK : K.length = 16) {D : Octets} {i : Nat} (hi : i < D.length) :
    (ctr K A W D).getD i 0 = D.getD i 0 ^^^ (aes128 K (Nat.repeat (incCounter W) (i / 16) A)).getD (i % 16) 0 := by
  rw [ctr, getD_xorOctets hi (by rwa [trunc_keystream_length K A W hK]), getD_trunc _ hi,
    getD_keystream K A W hK (by rw [keystreamBlocks]; omega)]

/-- A second CTR with the same key and counter uses the same keystream, which cancels (R163). -/
theorem ctr_ctr (K A : Octets) (W : Nat) (D : Octets) (hK : K.length = 16) : ctr K A W (ctr K A W D) = D := by
  rw [ctr, ctr_length K A W D hK, ctr, xorOctets_cancel D _ (trunc_keystream_length K A W hK D.length).ge]

/-- Settles O21: the keystream octet of `getD_ctr` does not depend on the input. -/
theorem ctrIsItsOwnInverse : Obligations.CtrIsItsOwnInverse := by
  intro K A D W hK
  refine ⟨ctr_ctr K A W D hK, ctr_length K A W D hK, fun D' i hi hi' hsame => ?_⟩
  rw [getD_ctr K A W hK hi, getD_ctr K A W hK hi', hsame]

end Sys2Proof.Machine

/-! The cipher as a permutation of the 16-octet blocks (spec/40_block_cipher.md section 4): each round transformation
is one, and the cipher composes them. -/

namespace Sys2Proof.Machine

/-- The 16-octet strings. -/
def blockSet : Set Octets := {B | B.length = 16}

/-- A map of blocks with a left inverse and a right inverse among the maps of blocks is a permutation. -/
theorem bijOn_blockSet {f g : Octets → Octets} (hf : ∀ B, B.length = 16 → (f B).length = 16)
    (hg : ∀ B, B.length = 16 → (g B).length = 16) (hgf : ∀ B, B.length = 16 → g (f B) = B)
    (hfg : ∀ B, B.length = 16 → f (g B) = B) : Set.BijOn f blockSet blockSet :=
  Set.InvOn.bijOn ⟨hgf, hfg⟩ hf hg

/-- A block is the list of its octets. -/
theorem eq_map_getD_of_length {B : Octets} (hB : B.length = 16) :
    B = (List.range 16).map fun i => B.getD i 0 := by
  refine List.ext_getElem (by simp [hB]) fun i hi _ => ?_
  simp [hi]

/-! ### `SubBytes` -/

/-- The octet whose table entry is c: undo the affine map, then invert in GF(2^8), which is again reading the table
without its affine map (R122). -/
def invSbox (c : Octet) : Octet := sboxAffineInverse (sbox (sboxAffineInverse c))

theorem invSbox_sbox : ∀ b : Octet, invSbox (sbox b) = b := by decide +kernel

/-- The table is a permutation of the octets: an injective map of a finite set. -/
theorem sbox_invSbox (c : Octet) : sbox (invSbox c) = c := by
  have hinj : Function.Injective sbox := Function.LeftInverse.injective invSbox_sbox
  obtain ⟨b, rfl⟩ := Finite.surjective_of_injective hinj c
  rw [invSbox_sbox]

theorem subBytes_bijOn : Set.BijOn subBytes blockSet blockSet := by
  refine bijOn_blockSet (g := List.map invSbox) (by simp) (by simp) (fun B _ => ?_) (fun B _ => ?_)
  · simp [subBytes, Function.comp_def, invSbox_sbox]
  · simp [subBytes, Function.comp_def, sbox_invSbox]

/-! ### `ShiftRows` -/

/-- The rows have four octets, so four shifts bring each octet back (R125). -/
theorem shiftRows_four {B : Octets} (hB : B.length = 16) :
    shiftRows (shiftRows (shiftRows (shiftRows B))) = B := by
  conv_rhs => rw [eq_map_getD_of_length hB]
  simp [shiftRows, shiftRowsIndices, List.range_succ]

theorem shiftRows_bijOn : Set.BijOn shiftRows blockSet blockSet :=
  bijOn_blockSet (g := fun B => shiftRows (shiftRows (shiftRows B))) (by simp) (by simp)
    (fun _ => shiftRows_four) (fun _ => shiftRows_four)

/-! ### `MixColumns` -/

theorem xor_left_comm (a b c : Octet) : a ^^^ (b ^^^ c) = b ^^^ (a ^^^ c) := by
  rw [← BitVec.xor_assoc, BitVec.xor_comm a b, BitVec.xor_assoc]

theorem xor_cancel_left (a b : Octet) : a ^^^ (a ^^^ b) = b := by
  rw [← BitVec.xor_assoc, BitVec.xor_self, BitVec.zero_xor]

/-- Multiplication by x is additive: the reduction by 0x11B is chosen by the top bit, which is additive too (R121). -/
theorem xtime_xor (a b : Octet) : xtime (a ^^^ b) = xtime a ^^^ xtime b := by
  simp only [xtime, BitVec.shiftLeft_xor_distrib, BitVec.msb_xor]
  cases a.msb <;> cases b.msb <;> simp [BitVec.xor_assoc, BitVec.xor_comm, xor_left_comm]

/-- The first octet of a mixed column; the others are this of the column rotated (R126). -/
def mixOctet (a0 a1 a2 a3 : Octet) : Octet := xtime a0 ^^^ timesThree a1 ^^^ a2 ^^^ a3

theorem mixColumn_eq_mixOctet (a0 a1 a2 a3 : Octet) : mixColumn a0 a1 a2 a3 =
    [mixOctet a0 a1 a2 a3, mixOctet a1 a2 a3 a0, mixOctet a2 a3 a0 a1, mixOctet a3 a0 a1 a2] := by
  simp only [mixColumn, mixOctet, BitVec.xor_assoc, BitVec.xor_comm, xor_left_comm]

/-- The polynomial 3x³ + x² + x + 2 of `MixColumns` has the square 4x² + 5 modulo x⁴ + 1. -/
def mixOctetTwice (a0 a2 : Octet) : Octet := xtime (xtime (a0 ^^^ a2)) ^^^ a0

theorem mixOctet_mixOctet (a0 a1 a2 a3 : Octet) :
    mixOctet (mixOctet a0 a1 a2 a3) (mixOctet a1 a2 a3 a0) (mixOctet a2 a3 a0 a1) (mixOctet a3 a0 a1 a2) =
      mixOctetTwice a0 a2 := by
  simp only [mixOctet, mixOctetTwice, timesThree, xtime_xor, BitVec.xor_assoc, BitVec.xor_comm, xor_left_comm,
    xor_cancel_left]

/-- The square of 4x² + 5 is 1 modulo x⁴ + 1. -/
theorem mixOctetTwice_mixOctetTwice (a0 a2 : Octet) :
    mixOctetTwice (mixOctetTwice a0 a2) (mixOctetTwice a2 a0) = a0 := by
  simp only [mixOctetTwice, xtime_xor, BitVec.xor_assoc, BitVec.xor_comm, xor_left_comm,
    BitVec.xor_self, BitVec.xor_zero, BitVec.zero_xor]

/-- Four mixings bring each column back. -/
theorem mixColumns_four {B : Octets} (hB : B.length = 16) :
    mixColumns (mixColumns (mixColumns (mixColumns B))) = B := by
  conv_rhs => rw [eq_map_getD_of_length hB]
  simp [mixColumns, mixColumn_eq_mixOctet, mixOctet_mixOctet, mixOctetTwice_mixOctetTwice, List.range_succ]

theorem mixColumns_bijOn : Set.BijOn mixColumns blockSet blockSet :=
  bijOn_blockSet (g := fun B => mixColumns (mixColumns (mixColumns B))) (by simp) (by simp)
    (fun _ => mixColumns_four) (fun _ => mixColumns_four)

/-! ### `AddRoundKey` and the rounds -/

/-- Adding a 16-octet key twice cancels (R127). -/
theorem addRoundKey_bijOn {rk : Octets} (hrk : rk.length = 16) :
    Set.BijOn (fun B => addRoundKey B rk) blockSet blockSet := by
  have hlen : ∀ B : Octets, B.length = 16 → (addRoundKey B rk).length = 16 := fun B hB => by simp [hB, hrk]
  have hcancel : ∀ B : Octets, B.length = 16 → addRoundKey (addRoundKey B rk) rk = B := fun B hB =>
    xorOctets_cancel B rk (by omega)
  exact bijOn_blockSet hlen hlen hcancel hcancel

theorem aesRound_bijOn {ws : List Octets} {round : Nat} (hrk : (roundKey ws round).length = 16) :
    Set.BijOn (fun B => aesRound ws B round) blockSet blockSet :=
  (addRoundKey_bijOn hrk).comp (mixColumns_bijOn.comp (shiftRows_bijOn.comp subBytes_bijOn))

theorem aesLastRound_bijOn {ws : List Octets} (hrk : (roundKey ws 10).length = 16) :
    Set.BijOn (aesLastRound ws) blockSet blockSet :=
  (addRoundKey_bijOn hrk).comp (shiftRows_bijOn.comp subBytes_bijOn)

theorem aesRounds_bijOn {ws : List Octets} (rounds : List Nat)
    (hrk : ∀ r ∈ rounds, (roundKey ws r).length = 16) :
    Set.BijOn (fun B => rounds.foldl (aesRound ws) B) blockSet blockSet := by
  induction rounds with
  | nil => exact Set.bijOn_id _
  | cons r rounds ih =>
    exact (ih fun r' h => hrk r' (List.mem_cons_of_mem r h)).comp (aesRound_bijOn (hrk r List.mem_cons_self))

/-- The cipher composes its first key addition, nine rounds and the last one (R130). -/
theorem aes128_eq_comp (K : Octets) : aes128 K = aesLastRound (keyExpansion K) ∘
    (fun B => (List.range' 1 9).foldl (aesRound (keyExpansion K)) B) ∘
    (fun B => addRoundKey B (roundKey (keyExpansion K) 0)) := by
  funext P
  simp only [aes128, Function.comp_apply]

theorem aes128_bijOn {K : Octets} (hK : K.length = 16) : Set.BijOn (aes128 K) blockSet blockSet := by
  have hrk := roundKey_length K hK
  rw [aes128_eq_comp]
  refine (aesLastRound_bijOn (hrk 10 le_rfl)).comp ((aesRounds_bijOn _ fun r hr => hrk r ?_).comp
    (addRoundKey_bijOn (hrk 0 (Nat.zero_le 10))))
  obtain ⟨_, hr10⟩ := List.mem_range'_1.mp hr
  omega

/-- Settles O26: a bijection of the blocks reaches each of them once. -/
theorem cipherIsAPermutation : Obligations.CipherIsAPermutation := by
  intro K hK
  obtain ⟨hmaps, hinj, hsurj⟩ := aes128_bijOn hK
  refine ⟨fun P hP => hmaps hP, fun C hC => ?_⟩
  obtain ⟨P, hP, hPC⟩ := hsurj hC
  exact ⟨P, ⟨hP, hPC⟩, fun Q hQ hQC => hinj hQ hP (hQC.trans hPC.symm)⟩

end Sys2Proof.Machine

/-! The pure functions of CCM* (spec/42_ccm_star.md R200, R203, R210, R214, R216): decryption after encryption, and
what a tag length of 0 leaves out. -/

namespace Sys2Proof.Machine

/-- CCM* decryption is the encryption again (R199). -/
theorem ccmCrypt_ccmCrypt (K N : Octets) (L : Nat) (m : Octets) (hK : K.length = 16) :
    ccmCrypt K N L (ccmCrypt K N L m) = m :=
  ctr_ctr K _ L m hK

/-- With an empty tag nothing is appended to the ciphertext. -/
theorem maskedTag_zero (K N : Octets) (L : Nat) (a m : Octets) : maskedTag K N L 0 a m = [] := rfl

/-- `F_CCMS_ENC` on inputs that pass every check, for every M: with M = 0 the tag is empty (R200, R203). -/
theorem fCcmsEnc_eq_ok {K N : Octets} {L M : Nat} {a m : Octets} (hp : ccmParametersOk L M = true)
    (hN : N.length = 15 - L) (hK : K.length = 16) (hl : ccmEncLengthsOk a.length m.length M = true) :
    fCcmsEnc K N L M a m = .ok (ccmCrypt K N L m ++ maskedTag K N L M a m) (m.length + M) := by
  rw [fCcmsEnc_ok K N L M a m hp hN hK hl]
  split
  case isTrue h0 =>
    subst h0
    rw [maskedTag_zero, List.append_nil, Nat.add_zero]
  case isFalse => rfl

/-- `F_CCMS_DEC` on inputs that pass every check: it succeeds when the expected tag is the received one, for every M
(R210). -/
theorem fCcmsDec_eq {K N : Octets} {L M : Nat} {a cu : Octets} (hp : ccmParametersOk L M = true)
    (hN : N.length = 15 - L) (hK : K.length = 16) (hl : ccmDecLengthsOk a.length cu.length M = true) :
    fCcmsDec K N L M a cu =
      if maskedTag K N L M a (ccmCrypt K N L (cu.take (cu.length - M))) = cu.drop (cu.length - M) then
        .ok (ccmCrypt K N L (cu.take (cu.length - M)) ++ cu.drop (cu.length - M)) (cu.length - M)
      else .err .authenticationFailed := by
  rw [fCcmsDec_checked K N L M a cu hp hN hK hl]
  by_cases h0 : M = 0
  · subst h0
    simp [maskedTag_zero]
  · rw [if_neg h0]

/-- A key of another length is reported as an invalid length or, before it, as an invalid parameter (R192). -/
theorem key_length_of_fCcmsEnc_ok {K N : Octets} {L M : Nat} {a m cu : Octets} {n : Nat}
    (h : fCcmsEnc K N L M a m = .ok cu n) : K.length = 16 := by
  by_contra hK
  simp only [fCcmsEnc, ne_eq, hK, not_false_eq_true, if_true] at h
  split at h <;> simp at h

/-- The tag stands in the last M octets of what encryption returns (R200). -/
theorem encrypted_length_sub {K N : Octets} {L M : Nat} {a m : Octets} (hK : K.length = 16) (hM : M ≤ 16) :
    (ccmCrypt K N L m ++ maskedTag K N L M a m).length - M = (ccmCrypt K N L m).length := by
  rw [List.length_append, maskedTag_length K N L M a m hK hM, Nat.add_sub_cancel]

/-- Decrypting a ciphertext with the tag of its own message gives both back (R214). -/
theorem fCcmsDec_of_encrypted {K N : Octets} {L M : Nat} {a m : Octets} (hp : ccmParametersOk L M = true)
    (hN : N.length = 15 - L) (hK : K.length = 16) (hl : ccmEncLengthsOk a.length m.length M = true) :
    fCcmsDec K N L M a (ccmCrypt K N L m ++ maskedTag K N L M a m) =
      .ok (m ++ maskedTag K N L M a m) m.length := by
  have hM : M ≤ 16 := by rw [ccmParametersOk_iff] at hp; omega
  have hcrypt := ccmCrypt_length K N L m hK
  have htag := maskedTag_length K N L M a m hK hM
  have hdec : ccmDecLengthsOk a.length (ccmCrypt K N L m ++ maskedTag K N L M a m).length M = true := by
    rw [ccmEncLengthsOk_iff] at hl
    rw [ccmDecLengthsOk_iff, List.length_append, htag, hcrypt]
    omega
  rw [fCcmsDec_eq hp hN hK hdec, encrypted_length_sub hK hM, List.take_left, List.drop_left,
    ccmCrypt_ccmCrypt K N L m hK, if_pos rfl, hcrypt]

/-- Settles O30: what encryption returned is the ciphertext with the tag of the message. -/
theorem ccmRoundTrip : Obligations.CcmRoundTrip := by
  intro K N a m cu L M n hL hM ha hm hN henc
  have hK := key_length_of_fCcmsEnc_ok henc
  have hp := (ccmParametersOk_iff L M).mpr ⟨hL, hM⟩
  have hl := (ccmEncLengthsOk_iff a.length m.length M).mpr ⟨ha, hm⟩
  rw [fCcmsEnc_eq_ok hp hN hK hl, PureResult.ok.injEq] at henc
  obtain ⟨rfl, _⟩ := henc
  rw [fCcmsDec_of_encrypted hp hN hK hl, encrypted_length_sub hK (by omega), List.drop_left]

/-- Settles O31: the comparison of tags stands behind the test for M = 0. -/
theorem noTagNeverFailsAuthentication : Obligations.NoTagNeverFailsAuthentication := by
  intro K N a cu L
  simp only [fCcmsDec, if_true]
  split_ifs <;> simp

/-- Settles O32: the tag is empty, and so is the encryption of an empty message. -/
theorem noTagEncryptsOnly : Obligations.NoTagEncryptsOnly := by
  intro K N a m L hK hL2 hL8 hN ha hm
  have hp : ccmParametersOk L 0 = true := (ccmParametersOk_iff L 0).mpr ⟨⟨hL2, hL8⟩, .inl rfl⟩
  have henc : ∀ m' : Octets, m'.length ≤ 255 → fCcmsEnc K N L 0 a m' = .ok (ccmCrypt K N L m') m'.length := by
    intro m' hm'
    rw [fCcmsEnc_ok K N L 0 a m' hp hN hK ((ccmEncLengthsOk_iff _ _ _).mpr ⟨ha, hm'⟩), if_pos rfl]
  exact ⟨henc m hm, henc [] (by simp)⟩

end Sys2Proof.Machine

/-! What completing commands leave in memory (spec/40_block_cipher.md R133, spec/41_block_modes.md R166, R168,
spec/42_ccm_star.md R201, R211, R213), and the commands that undo each other. -/

namespace Sys2Proof.Machine

/-! ### Two states with the same regions -/

/-- The registers and the configuration that a command's regions are made of, `LEN_M` excepted, agree (R61, R95). -/
structure SamePointers (s t : State) : Prop where
  keyPtr : t.keyPtr = s.keyPtr
  noncePtr : t.noncePtr = s.noncePtr
  aPtr : t.aPtr = s.aPtr
  lenA : t.lenA = s.lenA
  mPtr : t.mPtr = s.mPtr
  platform : t.platform = s.platform

theorem samePointers_of_next {i : Instr} {s t : State} (h : exec i s = .next t) : SamePointers s t := by
  obtain ⟨⟨hkey, hnonce, ha, hlenA, hm, _, hplatform, _⟩, _⟩ := commandFrame i s t h
  exact ⟨hkey, hnonce, ha, hlenA, hm, hplatform⟩

theorem SamePointers.keyRegion_eq {s t : State} (h : SamePointers s t) : keyRegion t = keyRegion s := by
  rw [keyRegion, h.keyPtr, keyRegion]

theorem SamePointers.nonceRegion_eq {s t : State} (h : SamePointers s t) (n : Nat) :
    nonceRegion t n = nonceRegion s n := by
  rw [nonceRegion, h.noncePtr, nonceRegion]

theorem SamePointers.dataRegion_eq {s t : State} (h : SamePointers s t) : dataRegion t = dataRegion s := by
  rw [dataRegion, h.aPtr, h.lenA, dataRegion]

theorem SamePointers.messageRegion_eq {s t : State} (h : SamePointers s t) (n : Nat) :
    messageRegion t n = messageRegion s n := by
  rw [messageRegion, h.mPtr, messageRegion]

theorem SamePointers.readOnlyRegions_eq {s t : State} (h : SamePointers s t) (i : Instr) :
    readOnlyRegions i t = readOnlyRegions i s := by
  cases i <;> simp only [readOnlyRegions, ccmReadOnly, h.keyRegion_eq, h.nonceRegion_eq, h.dataRegion_eq]

theorem SamePointers.operandsOk {s t : State} (h : SamePointers s t) {ro : List Region} {w : Region}
    (hops : OperandsOk s ro w) : OperandsOk t ro w := by
  rwa [OperandsOk, h.platform]

/-! ### Reading regions -/

/-- The written region of checked operands ends inside the address space (R61). -/
theorem OperandsOk.message_fits {s : State} {ro : List Region} {n : Nat} (h : OperandsOk s ro (messageRegion s n)) :
    s.mPtr.toNat + n ≤ Config.addrSpace :=
  h.written_fits s.mPtr.isLt

/-- A result stored at `M_PTR` is read back, in a canonical memory. -/
theorem readRegion_of_stored {s t : State} {ro : List Region} {n : Nat} {v : Octets}
    (hops : OperandsOk s ro (messageRegion s n)) (hv : v.length = n) (hmem : t.mem = (storeMessage s v).mem)
    (hwf : Memory.wf s.mem = true) : readRegion t (messageRegion s n) = v := by
  have hfits := hops.message_fits
  subst hv
  rw [readRegion, hmem]
  exact readOctets_writeOctets_same v s.mem _ hwf hfits

/-- Two states hold the same octets in a region exactly when it reads the same in both. -/
theorem sameOctets_iff (r : Region) (s t : State) : SameOctets r s t ↔ readRegion s r = readRegion t r := by
  constructor
  · exact fun h => readOctets_congr fun i hi => h _ ⟨Nat.le_add_right _ _, by omega⟩
  · rintro h a ⟨hlow, hhigh⟩
    obtain ⟨i, rfl⟩ := Nat.exists_eq_add_of_le hlow
    rw [← readOctets_getD s.mem r.start r.len i (by omega), ← readOctets_getD t.mem r.start r.len i (by omega)]
    exact congrArg (fun b : Octets => b.getD i 0) h

/-- A region that shares no address with the written one reads as before. -/
theorem readRegion_of_disjoint {s t : State} {r w : Region} (hkeep : KeepsMemoryOutside w s t)
    (hdisjoint : RegionsDisjoint w r) : readRegion t r = readRegion s r :=
  (sameOctets_iff r t s).mp fun a ha => hkeep a fun hw => hdisjoint a ⟨hw, ha⟩

/-- A shorter region at the same address holds the first octets of the longer one. -/
theorem readRegion_message_prefix (s t : State) {k n : Nat} (hk : k ≤ n) :
    readRegion t (messageRegion s k) = (readRegion t (messageRegion s n)).take k := by
  simp only [readRegion, messageRegion, readOctets, ← List.map_take, List.take_range, Nat.min_eq_left hk]

/-! ### Success -/

/-- A command whose pure function succeeds ends with its result in place (R133, R166, R168, R201, R211). -/
theorem exec_of_ok {i : Instr} {s : State} {out : Octets} (hi : s.initialized = true) (hop : opcode i ≠ 1)
    (hargs : argumentsOk i s = true) (hctr : ¬ (opcode i = 5 ∧ s.lenM.toNat = 0))
    (hops : OperandsOk s (readOnlyRegions i s) (writtenRegion i s))
    (hok : commandResult i s = .ok out (finalLenM i s)) : exec i s = .next (completed i s out) := by
  rw [exec_of_operandsOk hi hop hargs hctr hops, hok]
  rfl

theorem completed_of_finalLenM {i : Instr} {s : State} (h : finalLenM i s = s.lenM.toNat) (out : Octets) :
    completed i s out = (storeMessage s out).setStatus .success := by
  rw [completed, h]
  exact congrArg (State.setStatus · .success) (State.setLenM_self (storeMessage s out))

/-- Settles O14: with `LEN_M` = 16 the checks pass, and the result fills the block. -/
theorem ecbEncCompletes : Obligations.EcbEncCompletes := by
  intro l mac s hi hlen hops
  have hlength := aes128_length _ (readRegion s (messageRegion s 16)) (readRegion_keyRegion_length s)
  refine ⟨?_, hlength, readRegion_of_stored hops hlength rfl⟩
  rw [exec_of_ok (i := .ecbEnc l mac) hi (by simp [opcode]) ((ecbLengthOk_iff _).mpr hlen) (by simp [opcode])
    hops (commandResult_ecbEnc l mac hlen), completed_of_finalLenM rfl]

/-- Settles O15: the chain of whole blocks fills the message region. -/
theorem cbcEncRawCompletes : Obligations.CbcEncRawCompletes := by
  intro l mac s hi hpos hblocks hmax hops
  have hargs := (cbcLengthOk_iff _).mpr ⟨hpos, hblocks, hmax⟩
  have hlength := cbcChain_message_length hargs
  refine ⟨?_, hlength, readRegion_of_stored hops hlength rfl⟩
  rw [exec_of_ok (i := .cbcEncRaw l mac) hi (by simp [opcode]) hargs (by simp [opcode]) hops
    (commandResult_cbcEncRaw l mac hargs), completed_of_finalLenM rfl]

/-- Settles O16: the empty message is `exec_emptyCtr`. -/
theorem ctrEncRawCompletes : Obligations.CtrEncRawCompletes := by
  intro l mac s hi
  refine ⟨fun h0 => exec_emptyCtr hi ⟨rfl, h0⟩, fun hpos hmax hops => ?_⟩
  have hargs := (ctrLengthOk_iff _).mpr hmax
  have hlength := (ctr_length _ (readRegion s (nonceRegion s 16)) (rawCtrWidth s.platform) _
    (readRegion_keyRegion_length s)).trans (readRegion_message_length s s.lenM.toNat)
  refine ⟨?_, hlength, readRegion_of_stored hops hlength rfl⟩
  rw [exec_of_ok (i := .ctrEncRaw l mac) hi (by simp [opcode]) hargs (by omega) hops
    (commandResult_ctrEncRaw l mac hargs), completed_of_finalLenM rfl]

/-- The chain of one block is its cipher: the zero IV adds nothing (R161). -/
theorem cbcChain_one_block (K : Octets) {B : Octets} (hB : B.length = 16) : cbcChain K B = aes128 K B := by
  have hblocks : blocks B = [B] := by
    rw [blocks, hB]
    simp [List.take_of_length_le hB.le]
  have hzero : xorOctets (zeros 16) B = B := by
    refine List.ext_getElem (by simp [hB]) fun i hi _ => ?_
    simp only [xorOctets, zeros, List.getElem_zipWith, List.getElem_replicate]
    exact BitVec.zero_xor
  rw [cbcChain, hblocks, cbcBlocks, hzero, cbcBlocks, List.flatten_singleton]

/-- Settles O17: both commands have the same checks and regions, and on one block the same result. -/
theorem cbcOfOneBlockIsEcb : Obligations.CbcOfOneBlockIsEcb := by
  intro l mac l' mac' s hlen
  cases hi : s.initialized with
  | false => rw [exec_of_not_initialized (by simp [opcode]) hi, exec_of_not_initialized (by simp [opcode]) hi]
  | true =>
    have hcbc : cbcLengthOk s.lenM.toNat = true := (cbcLengthOk_iff _).mpr (by omega)
    have hecb : ecbLengthOk s.lenM.toNat = true := (ecbLengthOk_iff _).mpr hlen
    rw [exec_of_argumentsOk (i := .cbcEncRaw l mac) hi (by simp [opcode]) hcbc (by simp [opcode]),
      exec_of_argumentsOk (i := .ecbEnc l' mac') hi (by simp [opcode]) hecb (by simp [opcode]),
      commandResult_cbcEncRaw l mac hcbc, commandResult_ecbEnc l' mac' hlen,
      cbcChain_one_block _ (by rw [readRegion_message_length, hlen])]
    simp only [writtenRegion, hlen]
    rfl

/-! ### CCM* -/

theorem ccmsEncResult_eq_ok {s : State} {L M : Nat} (hp : ccmParametersOk L M = true)
    (hl : ccmEncLengthsOk s.lenA.toNat s.lenM.toNat M = true) :
    ccmsEncResult s L M =
      .ok (ccmCrypt (readRegion s (keyRegion s)) (readRegion s (nonceRegion s (15 - L))) L
          (readRegion s (messageRegion s s.lenM.toNat)) ++
        maskedTag (readRegion s (keyRegion s)) (readRegion s (nonceRegion s (15 - L))) L M
          (readRegion s (dataRegion s)) (readRegion s (messageRegion s s.lenM.toNat))) (s.lenM.toNat + M) := by
  rw [ccmsEncResult, fCcmsEnc_eq_ok hp (readRegion_length s _) (readRegion_keyRegion_length s)
    (by rwa [readRegion_length, readRegion_length]), readRegion_message_length]

/-- Settles O33: for every M, the result is the ciphertext followed by the masked tag. -/
theorem ccmsEncCompletes : Obligations.CcmsEncCompletes := by
  intro L M s hi hL2 hL8 hM ha hm hops
  have hp := (ccmParametersOk_iff L M).mpr ⟨⟨hL2, hL8⟩, hM⟩
  have hl := (ccmEncLengthsOk_iff _ _ M).mpr ⟨ha, hm⟩
  have hok := ccmsEncResult_eq_ok hp hl
  obtain ⟨hlength, _⟩ := fCcmsEnc_ok_length _ _ L M _ _ hp (readRegion_keyRegion_length s) _ _ hok
  exact ⟨exec_of_ok (i := .ccmsEnc L M) hi (by simp [opcode]) (Bool.and_eq_true_iff.mpr ⟨hp, hl⟩) (by simp [opcode])
    hops hok, hlength, readRegion_of_stored hops hlength rfl⟩

theorem ccmsDecResult_eq {s : State} {L M : Nat} (hp : ccmParametersOk L M = true)
    (hl : ccmDecLengthsOk s.lenA.toNat s.lenM.toNat M = true) :
    ccmsDecResult s L M =
      if maskedTag (readRegion s (keyRegion s)) (readRegion s (nonceRegion s (15 - L))) L M
          (readRegion s (dataRegion s)) (ccmCrypt (readRegion s (keyRegion s))
            (readRegion s (nonceRegion s (15 - L))) L
            ((readRegion s (messageRegion s s.lenM.toNat)).take (s.lenM.toNat - M))) =
          (readRegion s (messageRegion s s.lenM.toNat)).drop (s.lenM.toNat - M) then
        .ok (ccmCrypt (readRegion s (keyRegion s)) (readRegion s (nonceRegion s (15 - L))) L
            ((readRegion s (messageRegion s s.lenM.toNat)).take (s.lenM.toNat - M)) ++
          (readRegion s (messageRegion s s.lenM.toNat)).drop (s.lenM.toNat - M)) (s.lenM.toNat - M)
      else .err .authenticationFailed := by
  rw [ccmsDecResult, fCcmsDec_eq hp (readRegion_length s _) (readRegion_keyRegion_length s)
    (by rwa [readRegion_length, readRegion_length]), readRegion_message_length]

/-- Settles O34: with M = 0 the expected and the received tag are both empty. -/
theorem ccmsDecCompletes : Obligations.CcmsDecCompletes := by
  intro L M s hi hL2 hL8 hM ha hm hMm hops K N a cu p U expected t htag
  have hp := (ccmParametersOk_iff L M).mpr ⟨⟨hL2, hL8⟩, hM⟩
  have hl := (ccmDecLengthsOk_iff _ _ M).mpr ⟨ha, hm, hMm⟩
  have hexpected : expected = U := by
    obtain rfl | h := htag
    · exact (List.drop_of_length_le (readRegion_message_length s _).le).symm
    · exact h
  have hok : ccmsDecResult s L M = .ok (p ++ U) (s.lenM.toNat - M) := (ccmsDecResult_eq hp hl).trans (if_pos hexpected)
  have hlength : (p ++ U).length = s.lenM.toNat :=
    (fCcmsDec_ok_length _ _ L M _ _ (readRegion_keyRegion_length s) _ _ hok).1.trans (readRegion_message_length s _)
  exact ⟨exec_of_ok (i := .ccmsDec L M) hi (by simp [opcode]) (Bool.and_eq_true_iff.mpr ⟨hp, hl⟩) (by simp [opcode])
    hops hok, hlength, readRegion_of_stored hops hlength rfl⟩

/-- Settles O35: the pure function fails, and what the command then leaves alone are `commandFrame` and R69. -/
theorem ccmsDecRejectsWrongTag : Obligations.CcmsDecRejectsWrongTag := by
  intro L M s hi hL2 hL8 hM ha hm hMm hops K N a cu p expected hwrong
  have hp := (ccmParametersOk_iff L M).mpr ⟨⟨hL2, hL8⟩, .inr hM⟩
  have hl := (ccmDecLengthsOk_iff _ _ M).mpr ⟨ha, hm, hMm⟩
  have herr : ccmsDecResult s L M = .err .authenticationFailed := (ccmsDecResult_eq hp hl).trans (if_neg hwrong)
  have hexec : exec (.ccmsDec L M) s = .next ((scrambleMessage s L).setStatus .authenticationFailed) := by
    rw [exec_of_operandsOk (i := .ccmsDec L M) hi (by simp [opcode]) (Bool.and_eq_true_iff.mpr ⟨hp, hl⟩)
      (by simp [opcode]) hops, commandResult, herr]
    rfl
  exact ⟨_, hexec, rfl, hi, rfl, (commandFrame _ _ _ hexec).1, exec_keepsMemoryOutside hexec⟩

/-! ### Commands that undo each other -/

/-- A completing command leaves the operands it only reads as they were, since they do not share an address with the
region it writes (R63, R69). -/
theorem readRegion_readOnly_of_next {i : Instr} {s t : State} (h : exec i s = .next t)
    (hops : OperandsOk s (readOnlyRegions i s) (writtenRegion i s)) {r : Region} (hr : r ∈ readOnlyRegions i s) :
    readRegion t r = readRegion s r :=
  readRegion_of_disjoint (exec_keepsMemoryOutside h) (hops.2.2 r hr)

/-- Storing back what a region held restores every octet, where nothing outside the region has changed. -/
theorem readOctet_storeMessage_restored {s t : State} {ro : List Region} {n : Nat} (hsame : SamePointers s t)
    (hwf : Memory.wf t.mem = true) (hops : OperandsOk s ro (messageRegion s n))
    (hkeep : KeepsMemoryOutside (messageRegion s n) s t) (a : Nat) :
    readOctet (storeMessage t (readRegion s (messageRegion s n))).mem a = readOctet s.mem a := by
  have hlen := readRegion_message_length s n
  by_cases ha : RegionHolds (messageRegion s n) a
  · have hopst : OperandsOk t ro (messageRegion t n) := by
      rw [hsame.messageRegion_eq]
      exact hsame.operandsOk hops
    have hread := readRegion_of_stored hopst hlen rfl hwf
    rw [hsame.messageRegion_eq] at hread
    exact (sameOctets_iff _ _ _).mpr hread a ha
  · rw [storeMessage_outside t _ a (by rwa [hlen, hsame.messageRegion_eq]), hkeep a ha]

/-- A second run of `CTR_ENC_RAW` has the same key, IV and width, so its keystream cancels the first (R163). -/
theorem exec_ctrEncRaw_again {l mac : Nat} {s t : State} (hwf : Memory.wf s.mem = true)
    (h : exec (.ctrEncRaw l mac) s = .next t) (hargs : ctrLengthOk s.lenM.toNat = true) (h0 : s.lenM.toNat ≠ 0)
    (hops : OperandsOk s [keyRegion s, nonceRegion s 16] (messageRegion s s.lenM.toNat))
    (ht : t = (storeMessage s (ctr (readRegion s (keyRegion s)) (readRegion s (nonceRegion s 16))
      (rawCtrWidth s.platform) (readRegion s (messageRegion s s.lenM.toNat)))).setStatus .success) :
    exec (.ctrEncRaw l mac) t =
      .next ((storeMessage t (readRegion s (messageRegion s s.lenM.toNat))).setStatus .success) := by
  obtain ⟨hi, _⟩ := exec_ctrEncRaw_next h
  have hsame := samePointers_of_next h
  have hlenM : t.lenM = s.lenM := by rw [ht]; rfl
  have hK := readRegion_keyRegion_length s
  have hkey : readRegion t (keyRegion s) = readRegion s (keyRegion s) :=
    readRegion_readOnly_of_next h hops (by simp [readOnlyRegions])
  have hiv : readRegion t (nonceRegion s 16) = readRegion s (nonceRegion s 16) :=
    readRegion_readOnly_of_next h hops (by simp [readOnlyRegions])
  have hmessage := readRegion_of_stored (t := t) hops
    ((ctr_length _ _ _ _ hK).trans (readRegion_message_length s _)) (by rw [ht]; rfl) hwf
  have hresult : commandResult (.ctrEncRaw l mac) t =
      .ok (readRegion s (messageRegion s s.lenM.toNat)) t.lenM.toNat := by
    rw [commandResult_ctrEncRaw l mac (by rwa [hlenM]), hsame.keyRegion_eq, hsame.nonceRegion_eq,
      hsame.messageRegion_eq, hsame.platform, hlenM, hkey, hiv, hmessage, ctr_ctr _ _ _ _ hK]
  have hopst : OperandsOk t (readOnlyRegions (.ctrEncRaw l mac) t) (messageRegion t t.lenM.toNat) := by
    rw [hsame.readOnlyRegions_eq, hsame.messageRegion_eq, hlenM]
    exact hsame.operandsOk hops
  rw [exec_of_ok (exec_initialized h hi) (by simp [opcode]) (by rwa [argumentsOk, hlenM])
    (fun hctr => h0 (hlenM ▸ hctr.2)) hopst hresult, completed_of_finalLenM rfl]

/-- Settles O23: an empty message changes nothing, and any other is stored back by the second run. -/
theorem ctrEncRawTwiceRestoresMemory : Obligations.CtrEncRawTwiceRestoresMemory := by
  intro l mac s t hwf h hsuccess
  obtain ⟨hi, ⟨_, rfl⟩ | ⟨h0, rfl⟩ | ⟨hargs, h0, hops, ht⟩⟩ := exec_ctrEncRaw_next h
  · simp at hsuccess
  · exact ⟨_, exec_emptyCtr (s := s.setStatus .success) hi ⟨rfl, h0⟩, rfl, fun _ => rfl⟩
  · exact ⟨_, exec_ctrEncRaw_again hwf h hargs h0 hops ht, rfl, readOctet_storeMessage_restored (samePointers_of_next h)
      (exec_wf h hwf) hops (exec_keepsMemoryOutside h)⟩

/-- `CCMS_DEC` after a successful `CCMS_ENC` reads the same key, nonce and associated data, and the ciphertext with its
tag, so it gets the message and the tag back (R214). -/
theorem ccmsDecResult_of_encrypted {L M : Nat} {s t : State} (hsame : SamePointers s t)
    (hp : ccmParametersOk L M = true) (hl : ccmEncLengthsOk s.lenA.toNat s.lenM.toNat M = true)
    (hlenM : t.lenM.toNat = s.lenM.toNat + M)
    (hread : ∀ r ∈ ccmReadOnly s L, readRegion t r = readRegion s r)
    (hmessage : ccmsEncResult s L M =
      .ok (readRegion t (messageRegion s (s.lenM.toNat + M))) (s.lenM.toNat + M)) :
    ∃ tag, ccmsDecResult t L M = .ok (readRegion s (messageRegion s s.lenM.toNat) ++ tag) (s.lenM.toNat) := by
  have hkey := hread (keyRegion s) (by simp [ccmReadOnly])
  have hnonce := hread (nonceRegion s (15 - L)) (by simp [ccmReadOnly])
  have hdata := hread (dataRegion s) (by simp [ccmReadOnly])
  rw [ccmsEncResult_eq_ok hp hl, PureResult.ok.injEq] at hmessage
  rw [ccmsDecResult, hsame.keyRegion_eq, hsame.nonceRegion_eq, hsame.dataRegion_eq, hsame.messageRegion_eq, hlenM,
    hkey, hnonce, hdata, ← hmessage.1, fCcmsDec_of_encrypted hp (readRegion_length s _)
      (readRegion_keyRegion_length s) (by rwa [readRegion_length, readRegion_length]), readRegion_message_length]
  exact ⟨_, rfl⟩

/-- Settles O36: the decryption finds its operands in order, and the message in front of the buffer it writes. -/
theorem ccmCommandRoundTrip : Obligations.CcmCommandRoundTrip := by
  intro L M s t hwf h hsuccess
  obtain ⟨hi, ⟨_, rfl⟩ | ⟨_, _, rfl⟩ | ⟨hp, hl, hops, out, hok, hlen, ht⟩⟩ := exec_ccmsEnc_next h
  · simp at hsuccess
  · simp at hsuccess
  have hsame := samePointers_of_next h
  have hbounds := (ccmEncLengthsOk_iff _ _ _).mp hl
  have hlenM : t.lenM.toNat = s.lenM.toNat + M := by
    rw [ht]
    exact Nat.mod_eq_of_lt (by omega)
  have hmessage := readRegion_of_stored (t := t) hops hlen (by rw [ht]; rfl) hwf
  obtain ⟨tag, hdec⟩ := ccmsDecResult_of_encrypted hsame hp hl hlenM
    (fun r hr => readRegion_readOnly_of_next h hops hr) (by rw [hmessage, hok])
  have hopst : OperandsOk t (readOnlyRegions (.ccmsDec L M) t) (messageRegion t t.lenM.toNat) := by
    rw [hsame.readOnlyRegions_eq, hsame.messageRegion_eq, hlenM]
    exact hsame.operandsOk hops
  have hldec : ccmDecLengthsOk t.lenA.toNat t.lenM.toNat M = true := by
    rw [ccmDecLengthsOk_iff, hsame.lenA, hlenM]
    omega
  have hlenout : finalLenM (.ccmsDec L M) t = s.lenM.toNat := by rw [finalLenM, hlenM, Nat.add_sub_cancel]
  have hu := exec_of_ok (i := .ccmsDec L M) (exec_initialized h hi) (by simp [opcode])
    (Bool.and_eq_true_iff.mpr ⟨hp, hldec⟩) (by simp [opcode]) hopst (hdec.trans (by rw [hlenout]))
  refine ⟨_, hu, rfl, ?lenM, ?message⟩
  case lenM => simp [completed, hlenout]
  case message =>
    obtain ⟨hfull, _⟩ := fCcmsDec_ok_length _ _ L M _ _ (readRegion_keyRegion_length t) _ _ hdec
    rw [readRegion_message_length] at hfull
    have hbuffer := readRegion_of_stored (t := completed (.ccmsDec L M) t _) hopst hfull rfl (exec_wf h hwf)
    rw [hsame.messageRegion_eq, hlenM] at hbuffer
    rw [readRegion_message_prefix s _ (Nat.le_add_right _ M), hbuffer,
      List.take_left' (readRegion_message_length s _)]

end Sys2Proof.Machine

/-! The region checks (spec/20_memory.md R61 to R63), and what a command's outcome depends on (spec/10_state.md
section 4, spec/42_ccm_star.md section 3). -/

namespace Sys2Proof.Machine

/-! ### Regions that fault -/

theorem regionWraps_iff (r : Region) : regionWraps r = true ↔ 0 < r.len ∧ 2 ^ 32 < r.start + r.len := by
  simp [regionWraps, Config.addrSpace, Nat.pos_iff_ne_zero]

theorem regionUnadmitted_iff (p : Platform) (r : Region) :
    regionUnadmitted p r = true ↔ ∃ a, RegionHolds r a ∧ a < 2 ^ 32 ∧ memAdmit p a = false := by
  simp only [regionUnadmitted, List.any_eq_true, List.mem_range, Bool.and_eq_true, decide_eq_true_eq, Config.addrSpace,
    Bool.not_eq_true']
  constructor
  · rintro ⟨i, hi, hlt, hadmit⟩
    exact ⟨_, ⟨Nat.le_add_right _ _, Nat.add_lt_add_left hi _⟩, hlt, hadmit⟩
  · rintro ⟨a, ⟨hlow, hhigh⟩, hlt, hadmit⟩
    obtain ⟨i, rfl⟩ := Nat.exists_eq_add_of_le hlow
    exact ⟨i, by omega, hlt, hadmit⟩

theorem any_regionWraps_iff (rs : List Region) :
    rs.any regionWraps = true ↔ ∃ r ∈ rs, 0 < r.len ∧ 2 ^ 32 < r.start + r.len := by
  simp only [List.any_eq_true, regionWraps_iff]

theorem any_regionUnadmitted_iff (p : Platform) (rs : List Region) :
    rs.any (regionUnadmitted p) = true ↔ ∃ r ∈ rs, ∃ a, RegionHolds r a ∧ a < 2 ^ 32 ∧ memAdmit p a = false := by
  simp only [List.any_eq_true, regionUnadmitted_iff]

/-- The faults of R62 come before anything a command does with its operands. -/
theorem whenOperandsOk_of_regionFault {s : State} {ro : List Region} {w : Region} {f : Fault}
    (h : regionFault s (ro ++ [w]) = some f) (body : StepResult) : whenOperandsOk s ro w body = .fault f := by
  simp only [whenOperandsOk, operandFault, h, raise]

/-- Regions that pass R62 but overlap fault by R63. -/
theorem whenOperandsOk_of_overlap {s : State} {ro : List Region} {w : Region}
    (hvalid : ∀ r ∈ ro ++ [w], RegionValid s.platform r) (h : ∃ r ∈ ro, ¬ RegionsDisjoint w r) (body : StepResult) :
    whenOperandsOk s ro w body = .fault .operandOverlap := by
  obtain ⟨r, hr, hoverlap⟩ := h
  have hany : ro.any (regionsOverlap w) = true := by
    rw [← regionsOverlap_eq_false_iff, Bool.not_eq_false] at hoverlap
    exact List.any_eq_true.mpr ⟨r, hr, hoverlap⟩
  simp only [whenOperandsOk, operandFault, (regionFault_eq_none_iff s _).mpr hvalid, hany, if_true, raise]

/-- Settles O37: which of the reasons is recorded is decided by which of the two defects occurs among the regions. -/
theorem invalidRegionsFault : Obligations.InvalidRegionsFault := by
  intro i s hi hop hargs hctr rs wraps unadmitted
  have hwraps : wraps ↔ rs.any regionWraps = true := (any_regionWraps_iff rs).symm
  have hunadmitted : unadmitted ↔ rs.any (regionUnadmitted s.platform) = true :=
    (any_regionUnadmitted_iff s.platform rs).symm
  have hfault : ∀ f, regionFault s rs = some f → exec i s = .fault f := fun f h =>
    (exec_of_argumentsOk hi hop hargs hctr).trans (whenOperandsOk_of_regionFault h _)
  rw [hwraps, hunadmitted, Bool.not_eq_true, Bool.not_eq_true]
  refine ⟨fun hw hu => hfault _ ?_, fun hu hw => hfault _ ?_, fun hw hu => ?_⟩
  · simp only [regionFault, hw, hu]
  · simp only [regionFault, hw, hu]
  · cases hrecords : Config.recordsWrap s.draws rs with
    | true => exact .inl (hfault _ (by simp [regionFault, hw, hu, hrecords]))
    | false => exact .inr (hfault _ (by simp [regionFault, hw, hu, hrecords]))

/-- Settles O38: the shared address keeps the two regions from being disjoint. -/
theorem overlappingOperandsFault : Obligations.OverlappingOperandsFault := by
  intro i s r a hi hop hargs hctr hro hw hr hra hwa
  rw [exec_of_argumentsOk hi hop hargs hctr]
  refine whenOperandsOk_of_overlap (fun t ht => ?_) ⟨r, hr, fun hdisjoint => hdisjoint a ⟨hwa, hra⟩⟩ _
  obtain ht | ht := List.mem_append.mp ht
  · exact hro t ht
  · rwa [List.mem_singleton.mp ht]

/-! ### What the checks and the result depend on -/

/-- The checks read `LEN_A` and `LEN_M` alone (R261, R262). -/
theorem rejection_congr (i : Instr) {s s' : State} (ha : s'.lenA = s.lenA) (hm : s'.lenM = s.lenM) :
    rejection i s' = rejection i s := by
  cases i <;> simp only [rejection, ha, hm]

theorem argumentsOk_congr (i : Instr) {s s' : State} (ha : s'.lenA = s.lenA) (hm : s'.lenM = s.lenM) :
    argumentsOk i s' = argumentsOk i s := by
  cases i <;> simp only [argumentsOk, ha, hm]

theorem finalLenM_congr (i : Instr) {s s' : State} (hm : s'.lenM = s.lenM) : finalLenM i s' = finalLenM i s := by
  cases i <;> simp only [finalLenM, hm]

/-! ### No associated data -/

/-- An empty region passes the checks wherever it starts (R61, R63). -/
theorem regionValid_of_empty {p : Platform} {r : Region} (h : r.len = 0) : RegionValid p r := .inl h

theorem regionsDisjoint_of_empty {w r : Region} (h : r.len = 0) : RegionsDisjoint w r := by
  rintro a ⟨_, hlow, hhigh⟩
  omega

theorem dataRegion_len_of_lenA {s : State} (hA : s.lenA = 0) : (dataRegion s).len = 0 := by
  simp [dataRegion, hA]

/-- With `LEN_A` = 0 every region a command reads is one it also reads with another `A_PTR`, or empty. -/
theorem mem_readOnlyRegions_writeReg_aPtr {i : Instr} {s : State} {p : Word} {r : Region} (hA : s.lenA = 0)
    (hr : r ∈ readOnlyRegions i (s.writeReg .aPtr p)) : r ∈ readOnlyRegions i s ∨ r.len = 0 := by
  cases i with
  | ccmsEnc L M | ccmsDec L M =>
    simp only [readOnlyRegions, ccmReadOnly, List.mem_cons, List.not_mem_nil, or_false] at hr ⊢
    obtain rfl | rfl | rfl := hr
    · exact .inl (.inl rfl)
    · exact .inl (.inr (.inl rfl))
    · exact .inr (dataRegion_len_of_lenA hA)
  | _ => exact .inl hr

theorem OperandsOk.writeReg_aPtr {i : Instr} {s : State} {w : Region} (p : Word) (hA : s.lenA = 0)
    (h : OperandsOk s (readOnlyRegions i s) w) :
    OperandsOk (s.writeReg .aPtr p) (readOnlyRegions i (s.writeReg .aPtr p)) w := by
  obtain ⟨hvalid, hw, hdisjoint⟩ := h
  refine ⟨fun r hr => ?_, hw, fun r hr => ?_⟩
  · obtain hr | h0 := mem_readOnlyRegions_writeReg_aPtr hA hr
    · exact hvalid r hr
    · exact regionValid_of_empty h0
  · obtain hr | h0 := mem_readOnlyRegions_writeReg_aPtr hA hr
    · exact hdisjoint r hr
    · exact regionsDisjoint_of_empty h0

theorem readRegion_of_empty {s : State} {r : Region} (h : r.len = 0) : readRegion s r = [] :=
  List.eq_nil_of_length_eq_zero ((readRegion_length s r).trans h)

theorem commandResult_writeReg_aPtr (i : Instr) {s : State} (p : Word) (hA : s.lenA = 0) :
    commandResult i (s.writeReg .aPtr p) = commandResult i s := by
  have hdata : readRegion (s.writeReg .aPtr p) (dataRegion (s.writeReg .aPtr p)) = readRegion s (dataRegion s) := by
    rw [readRegion_of_empty (dataRegion_len_of_lenA (s := s.writeReg .aPtr p) hA),
      readRegion_of_empty (dataRegion_len_of_lenA hA)]
  cases i with
  | ccmsEnc L M =>
    simp only [commandResult, ccmsEncResult, hdata]
    rfl
  | ccmsDec L M =>
    simp only [commandResult, ccmsDecResult, hdata]
    rfl
  | _ => rfl

/-- With `LEN_A` = 0 a command that completes, other than by failing authentication, completes in the same way with
any other value in `A_PTR`. -/
theorem exec_writeReg_aPtr {i : Instr} {s t : State} (p : Word) (hA : s.lenA = 0)
    (hstatus : t.status ≠ .authenticationFailed) (h : exec i s = .next t) :
    exec i (s.writeReg .aPtr p) = .next (t.writeReg .aPtr p) := by
  obtain ⟨hop, hi, rfl⟩ | ⟨hop, hi, hend⟩ := exec_next_cases h
  · obtain ⟨l, mac, rfl⟩ := eq_init_of_opcode hop
    exact exec_init_of_fresh l mac (s := s.writeReg .aPtr p) hi
  have hrej := rejection_congr i (s := s) (s' := s.writeReg .aPtr p) rfl rfl
  have hargs' := argumentsOk_congr i (s := s) (s' := s.writeReg .aPtr p) rfl rfl
  cases hend with
  | rejected hc => exact exec_of_rejection (s := s.writeReg .aPtr p) hi (hrej.trans hc)
  | emptyCtr hctr => exact exec_emptyCtr (s := s.writeReg .aPtr p) hi hctr
  | success hargs hctr hops hok _ =>
    have hw : writtenRegion i (s.writeReg .aPtr p) = writtenRegion i s := by cases i <;> rfl
    have hfinal := finalLenM_congr i (s := s) (s' := s.writeReg .aPtr p) rfl
    rw [exec_of_ok (s := s.writeReg .aPtr p) hi hop (hargs'.trans hargs) hctr (hw ▸ hops.writeReg_aPtr p hA)
      ((commandResult_writeReg_aPtr i p hA).trans (hok.trans (by rw [hfinal]))), completed, hfinal]
    rfl
  | authenticationFailed _ _ _ _ _ => exact absurd rfl hstatus

/-- Settles O39: `exec_writeReg_aPtr` for the two commands. -/
theorem emptyAssociatedDataIgnoresPointer : Obligations.EmptyAssociatedDataIgnoresPointer :=
  fun _ _ p _ _ hA hstatus => ⟨exec_writeReg_aPtr p hA hstatus, exec_writeReg_aPtr p hA hstatus⟩

/-! ### The operands determine the result -/

theorem writtenRegion_congr (i : Instr) {s s' : State} (hsame : SamePointers s s') (hm : s'.lenM = s.lenM) :
    writtenRegion i s' = writtenRegion i s := by
  cases i <;> simp only [writtenRegion, hsame.messageRegion_eq, hm]

/-- The pure function's result depends on the operands' octets and the counter width alone (R15, R237). -/
theorem commandResult_congr {i : Instr} {s s' : State} (hsame : SamePointers s s') (hm : s'.lenM = s.lenM)
    (hargs : argumentsOk i s = true) (hread : ∀ r ∈ readOnlyRegions i s, readRegion s' r = readRegion s r)
    (hmessage : readRegion s' (messageRegion s s.lenM.toNat) = readRegion s (messageRegion s s.lenM.toNat)) :
    commandResult i s' = commandResult i s := by
  cases i with
  | init l mac => rw [commandResult, hm, commandResult]
  | ccmsEnc L M | ccmsDec L M =>
    have hkey := hread (keyRegion s) (by simp [readOnlyRegions, ccmReadOnly])
    have hnonce := hread (nonceRegion s (15 - L)) (by simp [readOnlyRegions, ccmReadOnly])
    have hdata := hread (dataRegion s) (by simp [readOnlyRegions, ccmReadOnly])
    simp only [commandResult, ccmsEncResult, ccmsDecResult, hsame.keyRegion_eq, hsame.nonceRegion_eq,
      hsame.dataRegion_eq, hsame.messageRegion_eq, hm, hkey, hnonce, hdata, hmessage]
  | cbcEncRaw l mac =>
    have hkey := hread (keyRegion s) (by simp [readOnlyRegions])
    simp only [commandResult, hsame.keyRegion_eq, hsame.messageRegion_eq, hm, hkey, hmessage]
  | ctrEncRaw l mac =>
    have hkey := hread (keyRegion s) (by simp [readOnlyRegions])
    have hiv := hread (nonceRegion s 16) (by simp [readOnlyRegions])
    simp only [commandResult, hsame.keyRegion_eq, hsame.nonceRegion_eq, hsame.messageRegion_eq, hsame.platform, hm,
      hkey, hiv, hmessage]
  | ecbEnc l mac =>
    have hkey := hread (keyRegion s) (by simp [readOnlyRegions])
    rw [(ecbLengthOk_iff _).mp hargs] at hmessage
    simp only [commandResult, hsame.keyRegion_eq, hsame.messageRegion_eq, hkey, hmessage]

/-- The written region holds the result after success, in a canonical memory. -/
theorem readRegion_written_completed {i : Instr} {s : State} {out : Octets} (hwf : Memory.wf s.mem = true)
    (hops : OperandsOk s (readOnlyRegions i s) (writtenRegion i s)) (hlen : out.length = (writtenRegion i s).len) :
    readRegion (completed i s out) (writtenRegion i s) = out := by
  rw [writtenRegion_eq_messageRegion] at hops ⊢
  exact readRegion_of_stored hops hlen rfl hwf

theorem operandsOk_congr {i : Instr} {s s' : State} (hsame : SamePointers s s') (hm : s'.lenM = s.lenM)
    (hops : OperandsOk s (readOnlyRegions i s) (writtenRegion i s)) :
    OperandsOk s' (readOnlyRegions i s') (writtenRegion i s') := by
  rw [hsame.readOnlyRegions_eq, writtenRegion_congr i hsame hm]
  exact hsame.operandsOk hops

/-- Settles O43: the checks, the regions and the pure function agree in the two states, so the same case of
`exec_next_cases` arises. -/
theorem operandsDetermineResult : Obligations.OperandsDetermineResult := by
  intro i s s' t hwf hwf' hinit hkey hnonce ha hlenA hm hlenM hplatform hro hmsg h
  have hsame : SamePointers s s' := ⟨hkey, hnonce, ha, hlenA, hm, hplatform⟩
  have hread : ∀ r ∈ readOnlyRegions i s, readRegion s' r = readRegion s r := fun r hr =>
    ((sameOctets_iff r s s').mp (hro r hr)).symm
  have hmessage := ((sameOctets_iff _ s s').mp hmsg).symm
  obtain ⟨hop, hi, rfl⟩ | ⟨hop, hi, hend⟩ := exec_next_cases h
  · obtain ⟨l, mac, rfl⟩ := eq_init_of_opcode hop
    refine ⟨_, exec_init_of_fresh l mac (hinit.trans hi), rfl, hlenM, rfl, fun _ a ⟨hlow, hhigh⟩ => ?_⟩
    exact absurd hhigh (Nat.not_lt.mpr hlow)
  have hi' := hinit.trans hi
  cases hend with
  | rejected hc =>
    refine ⟨_, exec_of_rejection hi' ((rejection_congr i hlenA hlenM).trans hc), rfl, hlenM, hinit, fun hs => ?_⟩
    obtain rfl | rfl := rejection_code hc <;> simp at hs
  | emptyCtr hctr =>
    obtain ⟨l, mac, rfl⟩ := eq_ctrEncRaw_of_opcode hctr.1
    exact ⟨_, exec_emptyCtr hi' (by rwa [hlenM]), rfl, hlenM, hinit, fun _ => hmsg⟩
  | @success out hargs hctr hops hok hlen =>
    have hops' := operandsOk_congr hsame hlenM hops
    have hok' : commandResult i s' = .ok out (finalLenM i s') := by
      rw [commandResult_congr hsame hlenM hargs hread hmessage, hok, finalLenM_congr i hlenM]
    have hread' := readRegion_written_completed (out := out) hwf' hops'
      (by rw [writtenRegion_congr i hsame hlenM, hlen])
    rw [writtenRegion_congr i hsame hlenM] at hread'
    refine ⟨_, exec_of_ok hi' hop ((argumentsOk_congr i hlenA hlenM).trans hargs) (by rwa [hlenM]) hops' hok', rfl, ?_,
      hinit, fun _ => ?_⟩
    · simp [completed, finalLenM_congr i hlenM]
    · rw [sameOctets_iff, readRegion_written_completed hwf hops hlen, hread']
  | authenticationFailed hargs hops herr hdec _ =>
    have herr' := (commandResult_congr hsame hlenM hargs hread hmessage).trans herr
    have hexec := exec_of_operandsOk hi' hop ((argumentsOk_congr i hlenA hlenM).trans hargs) (by omega)
      (operandsOk_congr hsame hlenM hops)
    rw [herr'] at hexec
    exact ⟨_, hexec, rfl, hlenM, hinit, by simp⟩

end Sys2Proof.Machine
